-- ==== Sys2Proof/Word.lean ====
section
/-! DEFINITION. The word types of the core (00_scope.md R6, R7). -/

namespace Sys2Proof

/-- A `u32`: a register, a block lane, an exception position or value (00_scope.md R7, 20_memory.md R61). -/
abbrev Word := BitVec 32

/-- A `u8`: one byte of the packed-byte buffer (00_scope.md R7, 20_memory.md R61). -/
abbrev Byte := BitVec 8

end Sys2Proof
end

