-- ==== Sys2Proof/Syntax.lean ====
section
/-! DEFINITION. The commands of the core: one constructor per row of the command table (30_encoding.md R96). -/

namespace Sys2Proof

/-- The five commands. No command carries an operand in its word (30_encoding.md R90, R93). -/
inductive Instr where
  /-- SELW, select width (41_width_select.md R140). -/
  | selw
  /-- PACK, pack the block at a given width (42_bitpack.md R160). -/
  | pack
  /-- UNPK, unpack COUNT elements of WIDTH bits (43_bitunpack.md R180). -/
  | unpk
  /-- PENC, PFor-encode the block under a budget (44_pfor_codec.md R200). -/
  | penc
  /-- PDEC, PFor-decode into the block (44_pfor_codec.md R220). -/
  | pdec
deriving DecidableEq, Repr

end Sys2Proof
end

