-- ==== Sys2Proof/WellFormed.lean ====
section
/-! DEFINITION. Well-formedness. A command of this core has no field of its own (30_encoding.md R93), so every term of
`Instr` is well formed; the checks there are to make are those on a command WORD: its reserved bits (R98) and its
operation code (R97). -/

namespace Sys2Proof.WellFormed

/-- A command carries no field that could be out of range (30_encoding.md R90, R93). -/
def instr : Instr → Bool
  | .selw => true
  | .pack => true
  | .unpk => true
  | .penc => true
  | .pdec => true

/-- Bits 31:3 are zero (30_encoding.md R91, R98). -/
def reservedClear (c : Word) : Bool := c.toNat / 8 == 0

/-- `OP` is one of 1 to 5; 0, 6 and 7 are reserved (30_encoding.md R97). -/
def opAssigned (c : Word) : Bool := 1 ≤ c.toNat % 8 && c.toNat % 8 ≤ 5

/-- A legal command word (30_encoding.md R92: exactly 0x00000001 to 0x00000005). -/
def word (c : Word) : Bool := reservedClear c && opAssigned c

end Sys2Proof.WellFormed
end

