-- ==== Sys2Proof/Decode.lean ====
section
/-! DEFINITION. The decoder `decode_cmd` (30_encoding.md R91, R92), the encoder from the command table (R96), and the
reading of an opcode-table word. -/

namespace Sys2Proof

/-- Field `RSV`, bits 31:3 of a command word (30_encoding.md R91). -/
def fieldRsv (c : Word) : BitVec 29 := c.extractLsb' 3 29

/-- Field `OP`, bits 2:0 of a command word (30_encoding.md R91). -/
def fieldOp (c : Word) : BitVec 3 := c.extractLsb' 0 3

/-- Why a command word is illegal (30_encoding.md R97, R98). Both reasons have the same effect (40_command_execution.md
R124). -/
inductive IllegalWord where
  /-- Some bit of 31:3 is set (30_encoding.md R98). -/
  | reservedBitsSet
  /-- `OP` is 0, 6 or 7 (30_encoding.md R97). -/
  | reservedOp
deriving DecidableEq, Repr

/-- `decode_cmd(c)`, total on every 32-bit word: one of the five commands, or the reason it is illegal
(30_encoding.md R92, R97, R98). -/
def decodeCmd (c : Word) : Except IllegalWord Instr :=
  if fieldRsv c ≠ 0 then .error .reservedBitsSet
  else if fieldOp c = 1 then .ok .selw
  else if fieldOp c = 2 then .ok .pack
  else if fieldOp c = 3 then .ok .unpk
  else if fieldOp c = 4 then .ok .penc
  else if fieldOp c = 5 then .ok .pdec
  else .error .reservedOp

/-- `decode_cmd(c)` with `none` for illegal (30_encoding.md R92). -/
def decode (c : Word) : Option Instr :=
  match decodeCmd c with
  | .ok i => some i
  | .error _ => none

/-- The `OP` code of a command (30_encoding.md R96). -/
def opcode : Instr → BitVec 3
  | .selw => 1
  | .pack => 2
  | .unpk => 3
  | .penc => 4
  | .pdec => 5

/-- The command word: reserved bits zero, then `OP` (30_encoding.md R91, R96). -/
def encode (i : Instr) : Word := (0 : BitVec 29) ++ opcode i

/-- The instruction the decoder reads from a table row's bits: the row's low `nbits` bits as one 32-bit command word, the
bits above them zero. A number that does not fit the 32-bit command register is no command word. -/
def decodeTableWord (nbits w : Nat) : Option Instr :=
  if w % 2 ^ nbits < 2 ^ 32 then decode (BitVec.ofNat 32 (w % 2 ^ nbits)) else none

end Sys2Proof
end

