-- ==== Sys2Proof/Config.lean ====
section
/-! DEFINITION. The parameters of the core (00_scope.md R6) and the free values: what the spec leaves unspecified
(93_implementation_defined.md U1, U2, U3). A free value is an opaque constant applied to the number of the draw, and to
an index where a whole range is drawn; nothing in Lean can say which value it is. -/

namespace Sys2Proof.Config

/-- `NMAX`, the largest block length a command accepts and the number of lanes (00_scope.md R6; log 12). -/
abbrev NMAX : Nat := 256

/-- `WMAX`, the largest BitWidth (00_scope.md R6). -/
abbrev WMAX : Nat := 32

/-- `PKBMAX = 4 * NMAX`, the size of the packed-byte buffer (00_scope.md R6). -/
abbrev PKBMAX : Nat := 4 * NMAX

/-- `EXMAX = NMAX`, the number of exception entries (00_scope.md R6). -/
abbrev EXMAX : Nat := NMAX

/-- Free value: lane `i` of BLK at draw `d` (93_implementation_defined.md U2, U3; logs 4 and 6). -/
opaque anyLane : (d i : Nat) → Word

/-- Free value: byte `j` of PKB at draw `d` (93_implementation_defined.md U2, U3; logs 4 and 6). -/
opaque anyByte : (d j : Nat) → Byte

/-- Free value: `EXP[k]` at draw `d` (93_implementation_defined.md U2, U3; logs 4 and 6). -/
opaque anyPos : (d k : Nat) → Word

/-- Free value: `EXV[k]` at draw `d` (93_implementation_defined.md U2, U3; logs 4 and 6). -/
opaque anyVal : (d k : Nat) → Word

/-- Free value: WIDTH after a command failed at draw `d` (93_implementation_defined.md U2; log 6). -/
opaque anyWidth : (d : Nat) → Word

/-- Free value: PLEN after a command failed at draw `d` (93_implementation_defined.md U2; log 6). -/
opaque anyPlen : (d : Nat) → Word

/-- Free value: EXCNT after a command failed at draw `d` (93_implementation_defined.md U2; log 6). -/
opaque anyExcnt : (d : Nat) → Word

/-- Free value: CMDL after the reset that took draw `d` (93_implementation_defined.md U1, U3; log 4). -/
opaque anyLatch : (d : Nat) → Word

end Sys2Proof.Config
end

