-- ==== Sys2Proof/Machine/State.lean ====
section
/-! DEFINITION. The state of one core (10_state.md R20) with the model's own fields beside it, the names of its locations,
what the host and the platform can do to it, and the state after reset (10_state.md R36). -/

namespace Sys2Proof.Machine

/-- `phase` (10_state.md R23): no command held, or exactly one in flight. -/
inductive Phase where
  | idle
  | busy
deriving DecidableEq, Repr

/-- The four error kinds of the source's functions (00_scope.md R12, 60_exceptions.md R241). -/
inductive ErrorKind where
  /-- A value too large for the declared width (60_exceptions.md R242). -/
  | widthOverflow
  /-- Too few bytes to unpack the requested count (60_exceptions.md R243). -/
  | truncatedBuffer
  /-- No width meets the budget: it is negative (60_exceptions.md R244). -/
  | budgetUnreachable
  /-- An exception position at or beyond the count (60_exceptions.md R245). -/
  | positionOutOfRange
deriving DecidableEq, Repr

/-- The six result codes a command can complete with (60_exceptions.md R241). Codes 6 and 7 are never produced
(93_implementation_defined.md U10; log 13). -/
inductive ResultCode where
  | ok
  | widthOverflow
  | truncatedBuffer
  | budgetUnreachable
  | positionOutOfRange
  | illegalCommand
deriving DecidableEq, Repr

/-- The seven registers by name (10_state.md section 4). -/
inductive Reg where
  | cmd
  | status
  | width
  | count
  | budget
  | plen
  | excnt
deriving DecidableEq, Repr

/-- Every location a host access can name: a register, or an element of a buffer (10_state.md R39, 20_memory.md R60).
The indices are bounded, so an index outside its space cannot be written down (93_implementation_defined.md U5; log 9). -/
inductive Loc where
  | reg (r : Reg)
  | blk (i : Fin Config.NMAX)
  | pkb (j : Fin Config.PKBMAX)
  | exp (k : Fin Config.EXMAX)
  | exv (k : Fin Config.EXMAX)
deriving DecidableEq, Repr

/-- A host write: the element and the whole value it gets, each space with its one access width
(10_state.md R39, 20_memory.md R61). `reg .cmd c` is `Issue(c)` (40_command_execution.md R120). -/
inductive Store where
  | reg (r : Reg) (v : Word)
  | blk (i : Fin Config.NMAX) (v : Word)
  | pkb (j : Fin Config.PKBMAX) (v : Byte)
  | exp (k : Fin Config.EXMAX) (v : Word)
  | exv (k : Fin Config.EXMAX) (v : Word)
deriving DecidableEq, Repr

/-- What a host read returns: one whole element (20_memory.md R61). -/
inductive Datum where
  | word (v : Word)
  | byte (v : Byte)
deriving DecidableEq, Repr

/-- One turn of an agent: which agent moves next, and what it does (40_command_execution.md R120; log 1). -/
inductive Turn where
  /-- The host reads a location. -/
  | read (l : Loc)
  /-- The host writes a location; a write to CMD issues a command. -/
  | write (w : Store)
  /-- The platform raises `Reset` (70_reset_and_hazards.md R280). -/
  | reset
  /-- The core's turn: in BUSY it takes `Complete`; in IDLE it has no step of its own (40_command_execution.md R132). -/
  | core
deriving DecidableEq, Repr

/-- The content of a buffer, as (index, value) pairs with strictly rising indices. An index that is not listed has not been
written since the last reset and reads as a free value of that reset (93_implementation_defined.md U3; log 5). -/
abbrev Cells (α : Type) := List (Nat × α)

/-- The packed-byte buffer PKB (10_state.md R32), what stands in the place of a byte memory (20_memory.md section 1). -/
abbrev Memory := List Host.Cell

/-- Why the machine stops with a fault. There is none: no condition locks the core up, and every command completes
(60_exceptions.md R252, 93_implementation_defined.md section 2; log 10). -/
inductive Fault where
deriving DecidableEq, Repr

/-- Why the model gives a step no meaning. -/
inductive Refusal where
  /-- Raised by `exec` for a command that has no meaning in the model yet. Safe. No arm raises it. -/
  | notModelled (mnemonic : String)
  /-- Raised by a host turn in BUSY other than a read of STATUS: "The spec gives such an access no meaning: a model has no
  step for it" (70_reset_and_hazards.md R290, 93_implementation_defined.md U4; log 8). Safe. -/
  | hostAccessWhileBusy
deriving DecidableEq, Repr

/-- Which locations hold a value that a failed command left unspecified (40_command_execution.md R130) and that nothing has
written since: three registers by a mark each, buffer elements by their indices, strictly rising (log 21). -/
structure Lost where
  width : Bool
  plen : Bool
  excnt : Bool
  lanes : List Nat
  bytes : List Nat
  positions : List Nat
  values : List Nat
deriving DecidableEq, Repr

/-- Nothing is unspecified through a failure. -/
def Lost.nothing : Lost :=
  { width := false, plen := false, excnt := false, lanes := [], bytes := [], positions := [], values := [] }

/-- One core. The first twelve fields are the record of 10_state.md R20; the last five are the model's own. -/
structure State where
  /-- `phase` (10_state.md R23). -/
  phase : Phase
  /-- CMDL, the command word latched at issue (10_state.md R34). -/
  cmdl : Word
  /-- STATUS.CODE (10_state.md R25). -/
  code : ResultCode
  /-- WIDTH (10_state.md R26). -/
  width : Word
  /-- COUNT (10_state.md R27). -/
  count : Word
  /-- BUDGET (10_state.md R28). -/
  budget : Word
  /-- PLEN (10_state.md R29). -/
  plen : Word
  /-- EXCNT (10_state.md R30). -/
  excnt : Word
  /-- BLK, the block lanes (10_state.md R31). -/
  blk : Cells Word
  /-- PKB, the packed bytes (10_state.md R32). -/
  pkb : Memory
  /-- EXP, the exception positions (10_state.md R33). -/
  exp : Cells Word
  /-- EXV, the exception values (10_state.md R33). -/
  exv : Cells Word
  /-- The model's own: the draw that gave the buffers their unspecified content at the last reset (log 7). -/
  epoch : Nat
  /-- The model's own: the number of the next draw of free values (log 7). -/
  draws : Nat
  /-- The model's own: what failed commands left unspecified since the last reset (log 21). -/
  lost : Lost
  /-- The model's own: the turns still to come, the next one first (log 1). -/
  agenda : List Turn
  /-- The model's own: what the host's reads returned, the latest first (log 3). -/
  answers : List Datum
deriving DecidableEq, Repr

/-- The state right after reset (10_state.md R36): IDLE, STATUS and the five registers 0, nothing written in any buffer;
CMDL and the buffers hold the free values of draw 0 (log 4). -/
def State.reset : State :=
  { phase := .idle
    cmdl := Config.anyLatch 0
    code := .ok
    width := 0
    count := 0
    budget := 0
    plen := 0
    excnt := 0
    blk := []
    pkb := []
    exp := []
    exv := []
    epoch := 0
    draws := 1
    lost := Lost.nothing
    agenda := []
    answers := [] }

end Sys2Proof.Machine
end

