-- ==== Sys2Proof/Machine/Bits.lean ====
section
/-! DEFINITION. The arithmetic helpers of the spec (00_scope.md R8, R10) and the bit order of the packed stream
(20_memory.md R65). All of it is exact arithmetic on naturals (00_scope.md R7). -/

namespace Sys2Proof.Machine

/-- `ceil_div(a, b)` (00_scope.md R10). -/
def ceilDiv (a b : Nat) : Nat := (a + b - 1) / b

/-- `bitlen(v)`, the least `w` with `v < 2^w` (00_scope.md R10). -/
def bitlen (v : Nat) : Nat := if v = 0 then 0 else Nat.log2 v + 1

/-- The length law: the bytes that `n` elements of `w` bits occupy (20_memory.md R64). -/
def packedLength (n w : Nat) : Nat := ceilDiv (n * w) 8

/-- The natural whose bit `k` is `f k`, for `k` below the given number of bits. -/
def natOfBits (f : Nat → Bool) : Nat → Nat
  | 0 => 0
  | k + 1 => natOfBits f k + (if f k then 2 ^ k else 0)

/-- Stream bit `p` of a byte sequence: bit `p mod 8` of byte `floor(p / 8)` (20_memory.md R65). -/
def byteBit (q : List Byte) (p : Nat) : Bool := (q.getD (p / 8) 0).getLsbD (p % 8)

/-- Stream bit `p` of the packing of `b` at width `w`: bit `p mod w` of element `floor(p / w)`, and 0 in the padding beyond
the last element (20_memory.md R65, R67). -/
def blockBit (b : List Word) (w p : Nat) : Bool :=
  decide (p < b.length * w) && (b.getD (p / w) 0).getLsbD (p % w)

/-- Byte `j` of the packing of `b` at width `w` (20_memory.md R65). -/
def packedByte (b : List Word) (w j : Nat) : Byte :=
  BitVec.ofNat 8 (natOfBits (fun r => blockBit b w (8 * j + r)) 8)

/-- Element `i` of a byte stream read at width `w`: the `w` stream bits from `i * w`, zero-extended
(20_memory.md R65, 43_bitunpack.md R181, R189). -/
def fieldAt (q : List Byte) (w i : Nat) : Word :=
  BitVec.ofNat 32 (natOfBits (fun k => byteBit q (i * w + k)) w)

end Sys2Proof.Machine
end

