-- ==== Sys2Proof/Machine/Ops.lean ====
section
/-! DEFINITION. The named operations over buffers and registers, the end of a command, and the taking of an exception. -/

namespace Sys2Proof.Machine

/-! ### Buffers as sorted (index, value) lists (log 5) -/

/-- The listed value at an index, if it has been written. -/
def cellFind {α : Type} (k : Nat) : Cells α → Option α
  | [] => none
  | (a, v) :: rest => if a = k then some v else cellFind k rest

/-- Replace the whole element at one index (10_state.md R39), keeping the indices rising. -/
def cellPut {α : Type} (k : Nat) (v : α) : Cells α → Cells α
  | [] => [(k, v)]
  | (a, u) :: rest =>
    if k < a then (k, v) :: (a, u) :: rest
    else if k = a then (k, v) :: rest
    else (a, u) :: cellPut k v rest

/-- Number values with consecutive indices from `n`. -/
def cellNumber {α : Type} (n : Nat) : List α → Cells α
  | [] => []
  | v :: vs => (n, v) :: cellNumber (n + 1) vs

/-- Write values to the indices `0 .. vs.length - 1` and leave every index above them alone: how every command writes its
output range (40_command_execution.md R128). -/
def cellPutFront {α : Type} (vs : List α) (m : Cells α) : Cells α :=
  cellNumber 0 vs ++ m.filter (fun c => decide (vs.length ≤ c.1))

/-- The canonical form from an index on: strictly rising, all below the bound. -/
def cellsSorted {α : Type} (lo bound : Nat) : Cells α → Bool
  | [] => true
  | (a, _) :: rest => decide (lo ≤ a) && decide (a < bound) && cellsSorted (a + 1) bound rest

/-- The canonical form of a word buffer of `NMAX` (= `EXMAX`) elements (log 5). -/
def cellsWf (m : Cells Word) : Bool := cellsSorted 0 Config.NMAX m

/-- The canonical form of the packed-byte buffer (log 5). -/
def Memory.wf (m : Memory) : Bool := cellsSorted 0 Config.PKBMAX m

/-! ### Reading an element -/

/-- `BLK[i]` (10_state.md R31); an element not written since the last reset is a free value of it (log 4). -/
def State.laneAt (s : State) (i : Nat) : Word := (cellFind i s.blk).getD (Config.anyLane s.epoch i)

/-- `PKB[j]` (10_state.md R32; log 4). -/
def State.byteAt (s : State) (j : Nat) : Byte := (cellFind j s.pkb).getD (Config.anyByte s.epoch j)

/-- `EXP[k]` (10_state.md R33; log 4). -/
def State.posAt (s : State) (k : Nat) : Word := (cellFind k s.exp).getD (Config.anyPos s.epoch k)

/-- `EXV[k]` (10_state.md R33; log 4). -/
def State.valAt (s : State) (k : Nat) : Word := (cellFind k s.exv).getD (Config.anyVal s.epoch k)

/-! ### What failed commands left unspecified (40_command_execution.md R130, 70_reset_and_hazards.md R285; log 21) -/

/-- A failure range (40_command_execution.md R130): which result registers, and how many leading bytes, lanes and exception
entries, become unspecified. -/
structure FailureRange where
  width : Bool
  plen : Bool
  excnt : Bool
  bytes : Nat
  lanes : Nat
  entries : Nat
deriving DecidableEq, Repr

/-- The marks left after the indices below `n` have been written. -/
def marksFrom (n : Nat) (l : List Nat) : List Nat := l.filter (fun k => decide (n ≤ k))

/-- The marks after the indices below `n` have been left unspecified. -/
def markFront (n : Nat) (l : List Nat) : List Nat := List.range n ++ marksFrom n l

/-- The marks left after index `k` has been written. -/
def unmark (k : Nat) (l : List Nat) : List Nat := l.filter (fun j => decide (j ≠ k))

/-- A failed command leaves its failure range unspecified. -/
def Lost.add (m : Lost) (r : FailureRange) : Lost :=
  { width := r.width || m.width
    plen := r.plen || m.plen
    excnt := r.excnt || m.excnt
    lanes := markFront r.lanes m.lanes
    bytes := markFront r.bytes m.bytes
    positions := markFront r.entries m.positions
    values := markFront r.entries m.values }

/-- A host write of one location gives it a value again. -/
def Lost.clear (m : Lost) : Loc → Lost
  | .reg .width => { m with width := false }
  | .reg .plen => { m with plen := false }
  | .reg .excnt => { m with excnt := false }
  | .reg .cmd | .reg .status | .reg .count | .reg .budget => m
  | .blk i => { m with lanes := unmark i.val m.lanes }
  | .pkb j => { m with bytes := unmark j.val m.bytes }
  | .exp k => { m with positions := unmark k.val m.positions }
  | .exv k => { m with values := unmark k.val m.values }

/-- The location is unspecified through a failed command. -/
def Lost.has (m : Lost) : Loc → Bool
  | .reg .width => m.width
  | .reg .plen => m.plen
  | .reg .excnt => m.excnt
  | .reg .cmd | .reg .status | .reg .count | .reg .budget => false
  | .blk i => m.lanes.contains i.val
  | .pkb j => m.bytes.contains j.val
  | .exp k => m.positions.contains k.val
  | .exv k => m.values.contains k.val

/-- The canonical form of a list of marks: strictly rising, all below the bound. -/
def marksWf (bound : Nat) (l : List Nat) : Bool := decide (l.Pairwise (· < ·)) && l.all (fun k => decide (k < bound))

/-- The canonical form of all marks. -/
def Lost.wf (m : Lost) : Bool :=
  marksWf Config.NMAX m.lanes && marksWf Config.PKBMAX m.bytes && marksWf Config.EXMAX m.positions
    && marksWf Config.EXMAX m.values

/-! ### Writing the results of a command -/

/-- `WIDTH <- w` for a BitWidth (10_state.md R26). -/
def State.setWidth (s : State) (w : Nat) : State :=
  { s with width := BitVec.ofNat 32 w, lost := { s.lost with width := false } }

/-- `BLK[i] <- b[i]` for `i` in `0 .. len(b) - 1` (10_state.md R31, 40_command_execution.md R128). -/
def State.writeBlock (s : State) (b : List Word) : State :=
  { s with blk := cellPutFront b s.blk, lost := { s.lost with lanes := marksFrom b.length s.lost.lanes } }

/-- `PKB[j] <- q[j]` for `j` in `0 .. len(q) - 1` and `PLEN <- len(q)` (10_state.md R29, R32). -/
def State.writePacked (s : State) (q : List Byte) : State :=
  { s with
    pkb := cellPutFront q s.pkb
    plen := BitVec.ofNat 32 q.length
    lost := { s.lost with plen := false, bytes := marksFrom q.length s.lost.bytes } }

/-- `(EXP[k], EXV[k]) <- x[k]` for `k` in `0 .. len(x) - 1` and `EXCNT <- len(x)` (10_state.md R30, R33). -/
def State.writeExceptions (s : State) (x : List (Word × Word)) : State :=
  { s with
    exp := cellPutFront (x.map Prod.fst) s.exp
    exv := cellPutFront (x.map Prod.snd) s.exv
    excnt := BitVec.ofNat 32 x.length
    lost :=
      { s.lost with
        excnt := false
        positions := marksFrom x.length s.lost.positions
        values := marksFrom x.length s.lost.values } }

/-! ### The end of a command, and the taking of an exception -/

/-- The end of a completion: `STATUS.CODE <- c ; phase <- IDLE` (40_command_execution.md R123). -/
def State.finish (s : State) (c : ResultCode) : State := { s with code := c, phase := .idle }

/-- `code(K)` (60_exceptions.md R241). -/
def ErrorKind.code : ErrorKind → ResultCode
  | .widthOverflow => .widthOverflow
  | .truncatedBuffer => .truncatedBuffer
  | .budgetUnreachable => .budgetUnreachable
  | .positionOutOfRange => .positionOutOfRange

/-- Every location of a failure range `<- unspecified` (40_command_execution.md R123, R130): free values of a fresh draw;
every other location keeps its value (93_implementation_defined.md U2; log 6). The range does not count as written
(70_reset_and_hazards.md R285; log 21). -/
def State.spoil (s : State) (r : FailureRange) : State :=
  { s with
    width := if r.width then Config.anyWidth s.draws else s.width
    plen := if r.plen then Config.anyPlen s.draws else s.plen
    excnt := if r.excnt then Config.anyExcnt s.draws else s.excnt
    blk := cellPutFront ((List.range r.lanes).map (Config.anyLane s.draws)) s.blk
    pkb := cellPutFront ((List.range r.bytes).map (Config.anyByte s.draws)) s.pkb
    exp := cellPutFront ((List.range r.entries).map (Config.anyPos s.draws)) s.exp
    exv := cellPutFront ((List.range r.entries).map (Config.anyVal s.draws)) s.exv
    draws := s.draws + 1
    lost := s.lost.add r }

/-- Taking an exception (60_exceptions.md R251): the failure range becomes unspecified, `STATUS.CODE <- code(K)`,
`phase <- IDLE`. Nothing is saved, control goes nowhere, and no return exists (R253). -/
def State.raise (s : State) (r : FailureRange) (k : ErrorKind) : State := (s.spoil r).finish k.code

/-- The exception with the empty failure range, `IllegalCommand`: "`STATUS.CODE <- 5 ; phase <- IDLE`", nothing else written
(40_command_execution.md R123, R124, R125). -/
def State.raiseIllegal (s : State) : State := s.finish .illegalCommand

/-! ### Issue and reset -/

/-- `Issue(c)`: `CMDL <- c`, `STATUS.CODE <- 0`, `phase <- BUSY` (40_command_execution.md R121). -/
def State.issue (s : State) (c : Word) : State := { s with cmdl := c, code := .ok, phase := .busy }

/-- `Reset` (70_reset_and_hazards.md R281, 10_state.md R36): registers 0, IDLE, and every buffer element and CMDL a free
value of a fresh draw. What the host has planned and seen is not the core's state and stays. -/
def State.platformReset (s : State) : State :=
  { State.reset with
    cmdl := Config.anyLatch s.draws
    epoch := s.draws
    draws := s.draws + 1
    agenda := s.agenda
    answers := s.answers }

end Sys2Proof.Machine
end

