-- ==== Sys2Proof/Machine/Flags.lean ====
section
/-! DEFINITION. STATUS.CODE, the core's only flag, and the STATUS word (10_state.md R25). -/

namespace Sys2Proof.Machine

/-- The three bits of `STATUS.CODE` (60_exceptions.md R241). -/
def ResultCode.bits : ResultCode → BitVec 3
  | .ok => 0
  | .widthOverflow => 1
  | .truncatedBuffer => 2
  | .budgetUnreachable => 3
  | .positionOutOfRange => 4
  | .illegalCommand => 5

/-- Bit 31 of STATUS: the phase read out (10_state.md R25). -/
def Phase.bit : Phase → BitVec 1
  | .idle => 0
  | .busy => 1

/-- A read of STATUS: bit 31 `BUSY`, bits 30:3 zero, bits 2:0 `CODE` (10_state.md R25). -/
def State.statusWord (s : State) : Word := s.phase.bit ++ (0 : BitVec 28) ++ s.code.bits

end Sys2Proof.Machine
end

