-- ==== Sys2Proof/Machine/Operands.lean ====
section
/-! DEFINITION. The operands of the commands (30_encoding.md R93 to R95, R101), their legality (40_command_execution.md
R125), the failure ranges (R130), and who reads and writes what (10_state.md R35). -/

namespace Sys2Proof.Machine

/-- The block operand `BLK[0..COUNT-1]` (10_state.md R31, 30_encoding.md R93). -/
def State.block (s : State) : List Word := (List.range s.count.toNat).map s.laneAt

/-- The packed-buffer operand `PKB[0..PLEN-1]` (10_state.md R32, 30_encoding.md R93). -/
def State.packed (s : State) : List Byte := (List.range s.plen.toNat).map s.byteAt

/-- The exception-list operand, entries `0..EXCNT-1` in index order (10_state.md R33, 30_encoding.md R105). -/
def State.exceptions (s : State) : List (Word × Word) :=
  (List.range s.excnt.toNat).map (fun k => (s.posAt k, s.valAt k))

/-- The BitWidth operand, the whole value of WIDTH (30_encoding.md R94). -/
def State.bitWidth (s : State) : Nat := s.width.toNat

/-- The budget operand `sext_32(BUDGET)` (30_encoding.md R101). -/
def State.exceptionBudget (s : State) : Int := s.budget.toInt

/-- `need = ceil_div(COUNT * WIDTH, 8)` (10_state.md R32). -/
def State.need (s : State) : Nat := packedLength s.count.toNat s.bitWidth

/-- `operands_legal(op)`: only the registers the command reads are checked (40_command_execution.md R125). -/
def operandsLegal (i : Instr) (s : State) : Bool :=
  match i with
  | .selw => decide (s.count.toNat ≤ Config.NMAX)
  | .pack => decide (s.count.toNat ≤ Config.NMAX) && decide (s.width.toNat ≤ Config.WMAX)
  | .unpk =>
    decide (s.count.toNat ≤ Config.NMAX) && decide (s.width.toNat ≤ Config.WMAX)
      && decide (s.plen.toNat ≤ Config.PKBMAX)
  | .penc => decide (s.count.toNat ≤ Config.NMAX)
  | .pdec =>
    decide (s.count.toNat ≤ Config.NMAX) && decide (s.width.toNat ≤ Config.WMAX)
      && decide (s.plen.toNat ≤ Config.PKBMAX) && decide (s.excnt.toNat ≤ Config.EXMAX)

/-- The failure range of each command (40_command_execution.md R130). -/
def failureRange (i : Instr) (s : State) : FailureRange :=
  match i with
  | .selw => { width := false, plen := false, excnt := false, bytes := 0, lanes := 0, entries := 0 }
  | .pack => { width := false, plen := true, excnt := false, bytes := s.need, lanes := 0, entries := 0 }
  | .unpk => { width := false, plen := false, excnt := false, bytes := 0, lanes := s.count.toNat, entries := 0 }
  | .penc =>
    { width := true, plen := true, excnt := true, bytes := 4 * s.count.toNat, lanes := 0,
      entries := s.count.toNat }
  | .pdec => { width := false, plen := false, excnt := false, bytes := 0, lanes := s.count.toNat, entries := 0 }

/-- The locations a command's completion reads (the `r` cells of 10_state.md R35). -/
def readsLoc (i : Instr) (s : State) (l : Loc) : Bool :=
  match i, l with
  | .selw, .reg .count | .pack, .reg .count | .unpk, .reg .count | .penc, .reg .count | .pdec, .reg .count => true
  | .pack, .reg .width | .unpk, .reg .width | .pdec, .reg .width => true
  | .penc, .reg .budget => true
  | .unpk, .reg .plen | .pdec, .reg .plen => true
  | .pdec, .reg .excnt => true
  | .selw, .blk k | .pack, .blk k | .penc, .blk k => decide (k.val < s.count.toNat)
  | .unpk, .pkb j | .pdec, .pkb j => decide (j.val < s.need)
  | .pdec, .exp k | .pdec, .exv k => decide (k.val < s.excnt.toNat)
  | _, _ => false

/-- The locations a successful completion from `s` to `t` writes (the `w` cells of 10_state.md R35): `L` is the PLEN and `E`
the EXCNT that the completion wrote. -/
def writesLoc (i : Instr) (s t : State) (l : Loc) : Bool :=
  match i, l with
  | _, .reg .status => true
  | .selw, .reg .width | .penc, .reg .width => true
  | .pack, .reg .plen | .penc, .reg .plen => true
  | .penc, .reg .excnt => true
  | .unpk, .blk k | .pdec, .blk k => decide (k.val < s.count.toNat)
  | .pack, .pkb j | .penc, .pkb j => decide (j.val < t.plen.toNat)
  | .penc, .exp k | .penc, .exv k => decide (k.val < t.excnt.toNat)
  | _, _ => false

/-- The locations of the failure range of a command that failed from `s` (40_command_execution.md R130), and STATUS. -/
def spoilsLoc (i : Instr) (s : State) (l : Loc) : Bool :=
  match l with
  | .reg .status => true
  | .reg .width => (failureRange i s).width
  | .reg .plen => (failureRange i s).plen
  | .reg .excnt => (failureRange i s).excnt
  | .reg _ => false
  | .blk k => decide (k.val < (failureRange i s).lanes)
  | .pkb j => decide (j.val < (failureRange i s).bytes)
  | .exp k => decide (k.val < (failureRange i s).entries)
  | .exv k => decide (k.val < (failureRange i s).entries)

end Sys2Proof.Machine
end

