-- ==== Sys2Proof/Machine/HostPort.lean ====
section
/-! DEFINITION. The host's and the platform's steps (10_state.md R39, 40_command_execution.md R120). -/

namespace Sys2Proof.Machine

/-- A register's number in host accesses (10_state.md section 4). -/
def Reg.number : Reg → Nat
  | .cmd => 0
  | .status => 1
  | .width => 2
  | .count => 3
  | .budget => 4
  | .plen => 5
  | .excnt => 6

/-- What a read of a register returns: CMD reads 0, STATUS is put together (10_state.md R24 to R30). -/
def State.regValue (s : State) : Reg → Word
  | .cmd => 0
  | .status => s.statusWord
  | .width => s.width
  | .count => s.count
  | .budget => s.budget
  | .plen => s.plen
  | .excnt => s.excnt

/-- The element at a location (10_state.md R39). -/
def State.elementAt (s : State) : Loc → Datum
  | .reg r => .word (s.regValue r)
  | .blk i => .word (s.laneAt i)
  | .pkb j => .byte (s.byteAt j)
  | .exp k => .word (s.posAt k)
  | .exv k => .word (s.valAt k)

/-- The location a host write names. -/
def Store.target : Store → Loc
  | .reg r _ => .reg r
  | .blk i _ => .blk i
  | .pkb j _ => .pkb j
  | .exp k _ => .exp k
  | .exv k _ => .exv k

/-- The whole value a host write carries. -/
def Store.datum : Store → Datum
  | .reg _ v => .word v
  | .blk _ v => .word v
  | .pkb _ v => .byte v
  | .exp _ v => .word v
  | .exv _ v => .word v

/-- The effect of a host write in IDLE: the element is replaced (10_state.md R39) and counts as written (70_reset_and_hazards.md
R285), a write to STATUS is ignored (R25), and a write to CMD issues (40_command_execution.md R121). -/
def State.store (s : State) : Store → State
  | .reg .cmd c => s.issue c
  | .reg .status _ => s
  | .reg .width v => { s with width := v, lost := s.lost.clear (.reg .width) }
  | .reg .count v => { s with count := v }
  | .reg .budget v => { s with budget := v }
  | .reg .plen v => { s with plen := v, lost := s.lost.clear (.reg .plen) }
  | .reg .excnt v => { s with excnt := v, lost := s.lost.clear (.reg .excnt) }
  | .blk i v => { s with blk := cellPut i.val v s.blk, lost := s.lost.clear (.blk i) }
  | .pkb j v => { s with pkb := cellPut j.val v s.pkb, lost := s.lost.clear (.pkb j) }
  | .exp k v => { s with exp := cellPut k.val v s.exp, lost := s.lost.clear (.exp k) }
  | .exv k v => { s with exv := cellPut k.val v s.exv, lost := s.lost.clear (.exv k) }

/-- A read is enabled in IDLE, and in BUSY when it reads STATUS (40_command_execution.md R120). DESIGN CHOICE (log 22): the
hands-off window is the time in BUSY, as R120 and 93_implementation_defined.md U4 bound it; 70_reset_and_hazards.md R290 and
20_memory.md R75 run it on to the first read of STATUS that returns bit 31 = 0, and the model does not. -/
def readEnabled (l : Loc) (s : State) : Bool := decide (s.phase = .idle) || decide (l = .reg .status)

/-- `HostRead(l)`: it returns the element and changes nothing of the core (40_command_execution.md R120, 20_memory.md R63);
the value is recorded for the host (log 3). In BUSY only STATUS can be read (log 8). -/
def hostRead (l : Loc) (s : State) : Host.Outcome State Fault Refusal :=
  if readEnabled l s then .next { s with answers := s.elementAt l :: s.answers }
  else .refused .hostAccessWhileBusy

/-- `HostWrite(w)` and `Issue`: enabled in IDLE only (40_command_execution.md R120), also between a completion and the read
of STATUS that finds it (DESIGN CHOICE, log 22). -/
def hostWrite (w : Store) (s : State) : Host.Outcome State Fault Refusal :=
  match s.phase with
  | .idle => .next (s.store w)
  | .busy => .refused .hostAccessWhileBusy

end Sys2Proof.Machine
end

