-- ==== Sys2Proof/Machine/Validate.lean ====
section
/-! DEFINITION. The part of a completion that all commands share (40_command_execution.md R123). -/

namespace Sys2Proof.Machine

/-- `Complete` from the operand check on (40_command_execution.md R123): illegal operands complete with code 5 and write
nothing else; otherwise `run` answers the state with the outputs written, or an error kind, which is raised with the
command's failure range. -/
def conclude (i : Instr) (run : State → Except ErrorKind State) (s : State) : Host.Outcome State Fault Refusal :=
  if operandsLegal i s then
    match run s with
    | .ok t => .next (t.finish .ok)
    | .error k => .next (s.raise (failureRange i s) k)
  else .next s.raiseIllegal

end Sys2Proof.Machine
end

