-- ==== Sys2Proof/Machine/Packer.lean ====
section
/-! DEFINITION. The bitpack shifter and the bitunpack deserializer: `pack` and PACK (42_bitpack.md), `unpack` and UNPK
(43_bitunpack.md). -/

namespace Sys2Proof.Machine

/-- `v` exceeds `w` bits: `v >= 2^w`, compared as naturals (30_encoding.md R103, 42_bitpack.md R162). -/
def exceeds (w : Nat) (v : Word) : Bool := decide (2 ^ w ≤ v.toNat)

/-- `pack(b, w)`: the whole block is tested first, then the elements are laid out by the stream order
(42_bitpack.md R161, R162). -/
def pack (b : List Word) (w : Nat) : Except ErrorKind (List Byte) :=
  if b.any (exceeds w) then .error .widthOverflow
  else .ok ((List.range (packedLength b.length w)).map (packedByte b w))

/-- `unpack(p, w, c)`: lengths only are compared, before any element is produced (43_bitunpack.md R181, R182). -/
def unpack (p : List Byte) (w c : Nat) : Except ErrorKind (List Word) :=
  if p.length < packedLength c w then .error .truncatedBuffer
  else .ok ((List.range c).map (fieldAt p w))

/-- `run(PACK)` (42_bitpack.md R160). -/
def runPack (s : State) : Except ErrorKind State := (pack s.block s.bitWidth).map s.writePacked

/-- PACK (42_bitpack.md R160). -/
def execPack (s : State) : Host.Outcome State Fault Refusal := conclude .pack runPack s

/-- `run(UNPK)` (43_bitunpack.md R180). -/
def runUnpk (s : State) : Except ErrorKind State := (unpack s.packed s.bitWidth s.count.toNat).map s.writeBlock

/-- UNPK (43_bitunpack.md R180). -/
def execUnpk (s : State) : Host.Outcome State Fault Refusal := conclude .unpk runUnpk s

end Sys2Proof.Machine
end

