-- ==== Sys2Proof/Machine/Pfor.lean ====
section
/-! DEFINITION. The PFor exception codec with the overlay mux: `encode` and PENC, `decode` and PDEC (44_pfor_codec.md). -/

namespace Sys2Proof.Machine

/-- An EncodedBlock: base width, packed base, exception list (30_encoding.md R106). -/
structure EncodedBlock where
  baseWidth : Nat
  packed : List Byte
  exceptions : List (Word × Word)
deriving DecidableEq, Repr

/-- `excess(w)`: how many elements exceed `w` bits (44_pfor_codec.md R203). -/
def excess (b : List Word) (w : Nat) : Nat := b.countP (exceeds w)

/-- The smallest `w` in `0..32` with `excess(w) <= budget`, if there is one (44_pfor_codec.md R203; log 11). -/
def chooseWidth (b : List Word) (budget : Int) : Option Nat :=
  (List.range (Config.WMAX + 1)).find? (fun w => decide ((excess b w : Int) ≤ budget))

/-- The base block: an element that exceeds the width is replaced by the sentinel 0 (44_pfor_codec.md R204). -/
def baseBlock (b : List Word) (w : Nat) : List Word := b.map (fun v => if exceeds w v then 0 else v)

/-- The exception list of the elements from index `n` on: position and full value, in ascending order
(44_pfor_codec.md R205). DESIGN CHOICE (log 20): a position is a `u32` (00_scope.md R9) and the functions take blocks of any
length (91_not_in_source.md N7), so the position of an element at index `2^32` or above, which the spec leaves open, is cut
modulo `2^32`; in the core COUNT is at most 256 and no index is cut. -/
def outliersFrom (w n : Nat) : List Word → List (Word × Word)
  | [] => []
  | v :: rest =>
    if exceeds w v then (BitVec.ofNat 32 n, v) :: outliersFrom w (n + 1) rest else outliersFrom w (n + 1) rest

/-- `encode(b, budget)` (44_pfor_codec.md R202, R207). -/
def encodeBlock (b : List Word) (budget : Int) : Except ErrorKind EncodedBlock :=
  match chooseWidth b budget with
  | none => .error .budgetUnreachable
  | some w =>
    (pack (baseBlock b w) w).map (fun q => { baseWidth := w, packed := q, exceptions := outliersFrom w 0 b })

/-- The overlay: in list order, check the position, then overwrite (44_pfor_codec.md R221, R222, R223). -/
def overlay (count : Nat) : List Word → List (Word × Word) → Except ErrorKind (List Word)
  | base, [] => .ok base
  | base, (pos, val) :: rest =>
    if count ≤ pos.toNat then .error .positionOutOfRange else overlay count (base.set pos.toNat val) rest

/-- `decode(e, count)`: unpack, then overlay (44_pfor_codec.md R221, R226). -/
def decodeBlock (e : EncodedBlock) (count : Nat) : Except ErrorKind (List Word) :=
  match unpack e.packed e.baseWidth count with
  | .error k => .error k
  | .ok base => overlay count base e.exceptions

/-- The EncodedBlock the core holds (30_encoding.md R93, R106). -/
def State.encoded (s : State) : EncodedBlock :=
  { baseWidth := s.bitWidth, packed := s.packed, exceptions := s.exceptions }

/-- Write an EncodedBlock to WIDTH, PKB, PLEN, EXP, EXV and EXCNT (44_pfor_codec.md R200). -/
def State.writeEncoded (s : State) (e : EncodedBlock) : State :=
  ((s.setWidth e.baseWidth).writePacked e.packed).writeExceptions e.exceptions

/-- `run(PENC)` (44_pfor_codec.md R200). -/
def runPenc (s : State) : Except ErrorKind State := (encodeBlock s.block s.exceptionBudget).map s.writeEncoded

/-- PENC (44_pfor_codec.md R200). -/
def execPenc (s : State) : Host.Outcome State Fault Refusal := conclude .penc runPenc s

/-- `run(PDEC)` (44_pfor_codec.md R220). -/
def runPdec (s : State) : Except ErrorKind State := (decodeBlock s.encoded s.count.toNat).map s.writeBlock

/-- PDEC (44_pfor_codec.md R220). -/
def execPdec (s : State) : Host.Outcome State Fault Refusal := conclude .pdec runPdec s

end Sys2Proof.Machine
end

