-- ==== Sys2Proof/Machine/Width.lean ====
section
/-! DEFINITION. The bit-width reduction tree: `selectWidth` and SELW (41_width_select.md). -/

namespace Sys2Proof.Machine

/-- `max(b)` as a natural, with `max([]) = 0` (00_scope.md R9, 41_width_select.md R141). -/
def blockMax : List Word → Nat
  | [] => 0
  | v :: rest => max v.toNat (blockMax rest)

/-- `selectWidth(b) = bitlen(max(b))` (41_width_select.md R141). -/
def selectWidth (b : List Word) : Nat := bitlen (blockMax b)

/-- `run(SELW)` (41_width_select.md R140): it has no error kind. -/
def runSelw (s : State) : Except ErrorKind State := .ok (s.setWidth (selectWidth s.block))

/-- SELW (41_width_select.md R140). -/
def execSelw (s : State) : Host.Outcome State Fault Refusal := conclude .selw runSelw s

end Sys2Proof.Machine
end

