-- ==== Sys2Proof/Machine/Dispatch.lean ====
section
/-! DEFINITION. `run` and completion of each command, one arm a command (40_command_execution.md R123). -/

namespace Sys2Proof.Machine

def exec (i : Instr) (s : State) : Host.Outcome State Fault Refusal :=
  match i with
  | .selw => Sys2Proof.Machine.execSelw s
  | .pack => Sys2Proof.Machine.execPack s
  | .unpk => Sys2Proof.Machine.execUnpk s
  | .penc => Sys2Proof.Machine.execPenc s
  | .pdec => Sys2Proof.Machine.execPdec s

end Sys2Proof.Machine
end

