-- ==== Sys2Proof/Machine/Complete.lean ====
section
/-! DEFINITION. The core's step `Complete`, and the turn of each agent (40_command_execution.md R120, R123). -/

namespace Sys2Proof.Machine

/-- `Complete` of the word in CMDL: an illegal word completes with code 5 and changes nothing else
(40_command_execution.md R123, R124, R126). -/
def complete (s : State) : Host.Outcome State Fault Refusal :=
  match decode s.cmdl with
  | some i => exec i s
  | none => .next s.raiseIllegal

/-- The core's turn: `Complete` in BUSY (40_command_execution.md R122); nothing in IDLE, which "has no step of the core's own"
(R132). -/
def coreTurn (s : State) : Host.Outcome State Fault Refusal :=
  match s.phase with
  | .idle => .next s
  | .busy => complete s

/-- One turn of the agent that moves next (40_command_execution.md R120; log 1). -/
def takeTurn (t : Turn) (s : State) : Host.Outcome State Fault Refusal :=
  match t with
  | .read l => hostRead l s
  | .write w => hostWrite w s
  | .reset => .next s.platformReset
  | .core => coreTurn s

/-- The turns that stand after the next one. -/
def State.dropTurn (s : State) : State := { s with agenda := s.agenda.tail }

/-- The next agent takes its turn; with no turn left in the agenda the core moves, so that every command completes
(40_command_execution.md R122; log 1). -/
def advance (s : State) : Host.Outcome State Fault Refusal :=
  match s.agenda with
  | [] => coreTurn s
  | t :: _ => takeTurn t s.dropTurn

/-- `exec(c, s)` of 40_command_execution.md R131: `Issue(c)` followed by `Complete`. -/
def runCommand (c : Word) (s : State) : Host.Outcome State Fault Refusal := complete (s.issue c)

end Sys2Proof.Machine
end

