-- ==== Sys2Proof/Machine/Step.lean ====
section
/-! DEFINITION. One step of the machine (40_command_execution.md R120), and the placing of a command word. -/

namespace Sys2Proof.Machine

/-- One step: one host access, one completion or one reset (00_scope.md R5, 40_command_execution.md R120). -/
def step (s : State) : Host.Outcome State Fault Refusal := advance s

/-- The state in which the very next step completes the command word `w`: the word is in CMDL as its issue leaves it
(40_command_execution.md R121) and the core has the next turn. The core loads no program; this stands for the host's write
to CMD (log 2). -/
def State.withFetchWord (s : State) (nbits w : Nat) : State :=
  { s.issue (BitVec.ofNat 32 (w % 2 ^ nbits)) with agenda := .core :: s.agenda }

end Sys2Proof.Machine
end

