-- ==== Sys2Proof/Machine/Datapath.lean ====
section
/-! DEFINITION. The reference datapaths (41_width_select.md R147, 42_bitpack.md R168, 43_bitunpack.md R188,
44_pfor_codec.md R211, R225). They are informative and not observable; no command of the model runs on them. They stand
here to be proved equal to the functions. -/

namespace Sys2Proof.Machine

/-! ### The reduction tree (41_width_select.md R147) -/

/-- `leaf[i]`: the lane below COUNT, else the identity 0, for every lane of the core. -/
def treeLeaves (s : State) : List Word :=
  (List.range Config.NMAX).map (fun i => if i < s.count.toNat then s.laneAt i else 0)

/-- One level of pairwise OR. -/
def orLevel : List Word → List Word
  | a :: b :: rest => (a ||| b) :: orLevel rest
  | rest => rest

/-- So many levels of pairwise OR. -/
def orLevels : Nat → List Word → List Word
  | 0, l => l
  | n + 1, l => orLevels n (orLevel l)

/-- The priority encoder over the low `n` bits: 0 when none is set, else 1 + the index of the highest set one. -/
def priorityEncode (v : Word) : Nat → Nat
  | 0 => 0
  | k + 1 => if v.getLsbD k then k + 1 else priorityEncode v k

/-- The WIDTH the tree computes: 8 levels for `NMAX = 256`, then the priority encoder on the root. -/
def treeWidth (s : State) : Nat := priorityEncode ((orLevels 8 (treeLeaves s)).headD 0) 32

/-! ### The shifter (42_bitpack.md R168) -/

/-- The shifter's registers: the 39-bit accumulator, the number of valid bits in it, the bytes emitted so far. -/
structure Shifter where
  acc : BitVec 39
  fill : Nat
  out : List Byte
deriving DecidableEq, Repr

/-- The shifter at the start of every command. -/
def Shifter.start : Shifter := { acc := 0, fill := 0, out := [] }

/-- "while fill >= 8", at most so many rounds (log 17). -/
def Shifter.emit : Nat → Shifter → Shifter
  | 0, r => r
  | n + 1, r =>
    if 8 ≤ r.fill then
      Shifter.emit n { acc := r.acc >>> 8, fill := r.fill - 8, out := r.out ++ [r.acc.setWidth 8] }
    else r

/-- One element enters above the bits left over. -/
def Shifter.feed (w : Nat) (r : Shifter) (v : Word) : Shifter :=
  Shifter.emit 5 { r with acc := r.acc ||| (v.setWidth 39 <<< r.fill), fill := r.fill + w }

/-- The last, padded byte when bits are left. -/
def Shifter.flush (r : Shifter) : List Byte := if 0 < r.fill then r.out ++ [r.acc.setWidth 8] else r.out

/-- The bytes the shifter emits for a block (42_bitpack.md R168). -/
def shifterPack (b : List Word) (w : Nat) : List Byte := (b.foldl (Shifter.feed w) Shifter.start).flush

/-! ### The deserializer (43_bitunpack.md R188) -/

/-- The deserializer's registers: accumulator, valid bits in it, and the next byte to load. -/
structure Deserializer where
  acc : BitVec 39
  fill : Nat
  next : Nat
deriving DecidableEq, Repr

/-- The deserializer at the start of every command. -/
def Deserializer.start : Deserializer := { acc := 0, fill := 0, next := 0 }

/-- "while fill < w", at most so many loads (log 17). -/
def Deserializer.load (p : List Byte) (w : Nat) : Nat → Deserializer → Deserializer
  | 0, r => r
  | n + 1, r =>
    if r.fill < w then
      Deserializer.load p w n
        { acc := r.acc ||| ((p.getD r.next 0).setWidth 39 <<< r.fill), fill := r.fill + 8, next := r.next + 1 }
    else r

/-- The low `w` bits of the accumulator. -/
def Deserializer.field (w : Nat) (r : Deserializer) : Word := BitVec.ofNat 32 (r.acc.toNat % 2 ^ w)

/-- The accumulator after an element has left it. -/
def Deserializer.drop (w : Nat) (r : Deserializer) : Deserializer :=
  { r with acc := r.acc >>> w, fill := r.fill - w }

/-- So many elements, from the given registers on; at most 4 loads each. -/
def deserialize (p : List Byte) (w : Nat) : Nat → Deserializer → List Word
  | 0, _ => []
  | c + 1, r =>
    (Deserializer.load p w 4 r).field w :: deserialize p w c ((Deserializer.load p w 4 r).drop w)

/-- The elements the deserializer produces (43_bitunpack.md R188). -/
def deserializerUnpack (p : List Byte) (w c : Nat) : List Word := deserialize p w c Deserializer.start

/-! ### The encoder's two passes (44_pfor_codec.md R211) -/

/-- Pass 1: bin `l` of the histogram of bit lengths. -/
def histogram (b : List Word) (l : Nat) : Nat := b.countP (fun v => decide (bitlen v.toNat = l))

/-- Pass 1: `excess(w)` as the suffix sum of the bins above `w`. -/
def suffixExcess (b : List Word) (w : Nat) : Nat := ((List.range' (w + 1) (32 - w)).map (histogram b)).sum

/-- The registers of pass 2: the shifter, the lane index, the entries written so far. -/
structure Encoder where
  shifter : Shifter
  lane : Nat
  entries : List (Word × Word)
deriving DecidableEq, Repr

/-- Pass 2, one lane: an exception feeds the sentinel and is listed; an index of `2^32` or above is cut as in `outliersFrom`
(DESIGN CHOICE, log 20). -/
def Encoder.feed (w : Nat) (r : Encoder) (v : Word) : Encoder :=
  if w < bitlen v.toNat then
    { shifter := r.shifter.feed w 0, lane := r.lane + 1, entries := r.entries ++ [(BitVec.ofNat 32 r.lane, v)] }
  else { shifter := r.shifter.feed w v, lane := r.lane + 1, entries := r.entries }

/-- The EncodedBlock the two passes compute, or no width when the budget is negative (44_pfor_codec.md R211). -/
def datapathEncode (b : List Word) (budget : Int) : Except ErrorKind EncodedBlock :=
  match (List.range (Config.WMAX + 1)).find? (fun w => decide ((suffixExcess b w : Int) ≤ budget)) with
  | none => .error .budgetUnreachable
  | some w =>
    let r := b.foldl (Encoder.feed w) { shifter := Shifter.start, lane := 0, entries := [] }
    .ok { baseWidth := w, packed := r.shifter.flush, exceptions := r.entries }

/-! ### The overlay mux (44_pfor_codec.md R225) -/

/-- `EXV[max hit(i)]`, if some entry names lane `i`. -/
def lastHit (x : List (Word × Word)) (i : Nat) : Option Word :=
  ((x.filter (fun e => decide (e.1.toNat = i))).getLast?).map Prod.snd

/-- Each lane selects between the deserializer's output and the exception values. -/
def overlayMux (base : List Word) (x : List (Word × Word)) : List Word :=
  base.mapIdx (fun i v => (lastHit x i).getD v)

/-- The decode datapath: the range check of every entry, then the mux (44_pfor_codec.md R225). -/
def datapathOverlay (count : Nat) (base : List Word) (x : List (Word × Word)) : Except ErrorKind (List Word) :=
  if x.any (fun e => decide (count ≤ e.1.toNat)) then .error .positionOutOfRange else .ok (overlayMux base x)

end Sys2Proof.Machine
end

