-- ==== Sys2Proof/Machine/Script.lean ====
section
/-! DEFINITION. The script notation of host programs and its expansion into turns (30_encoding.md R112, R113). -/

namespace Sys2Proof.Machine

/-- A script line (30_encoding.md R112). `wait` carries how often the host's polling finds the core still BUSY, which the
spec leaves open (40_command_execution.md R122; log 16). -/
inductive ScriptLine where
  | wr (r : Reg) (v : Word)
  | rd (r : Reg)
  | wrl (i : Fin Config.NMAX) (v : Word)
  | wrb (j : Fin Config.PKBMAX) (v : Byte)
  | wrx (k : Fin Config.EXMAX) (p v : Word)
  | rdl (i : Fin Config.NMAX)
  | rdb (j : Fin Config.PKBMAX)
  | rdx (k : Fin Config.EXMAX)
  | wait (polls : Nat)
deriving DecidableEq, Repr

/-- `wait`: reads of STATUS that find BUSY, the completion, and the read that finds IDLE (30_encoding.md R112). -/
def waitTurns (polls : Nat) : List Turn := List.replicate polls (.read (.reg .status)) ++ [.core, .read (.reg .status)]

/-- The host accesses of a line (30_encoding.md R112). -/
def ScriptLine.turns : ScriptLine → List Turn
  | .wr r v => [.write (.reg r v)]
  | .rd r => [.read (.reg r)]
  | .wrl i v => [.write (.blk i v)]
  | .wrb j v => [.write (.pkb j v)]
  | .wrx k p v => [.write (.exp k p), .write (.exv k v)]
  | .rdl i => [.read (.blk i)]
  | .rdb j => [.read (.pkb j)]
  | .rdx k => [.read (.exp k), .read (.exv k)]
  | .wait polls => waitTurns polls

/-- A script's host accesses, in order (30_encoding.md R112). -/
def scriptTurns (ls : List ScriptLine) : List Turn := ls.flatMap ScriptLine.turns

/-- The pseudo-lines SELW, PACK, UNPK, PENC, PDEC: `wr CMD, <word>` then `wait` (30_encoding.md R113). -/
def commandLines (i : Instr) (polls : Nat) : List ScriptLine := [.wr .cmd (encode i), .wait polls]

/-- One line per value, at consecutive indices from `k`; none when an index would leave its space. -/
def indexedLines {α : Type} {n : Nat} (f : Fin n → α → ScriptLine) (k : Nat) : List α → Option (List ScriptLine)
  | [] => some []
  | v :: vs => if h : k < n then (indexedLines f (k + 1) vs).map (fun rest => f ⟨k, h⟩ v :: rest) else none

/-- `blk [v0, …]`: the lanes, then COUNT (30_encoding.md R113). -/
def blkLines (b : List Word) : Option (List ScriptLine) :=
  (indexedLines ScriptLine.wrl 0 b).map (fun ls => ls ++ [.wr .count (BitVec.ofNat 32 b.length)])

/-- `pkb [b0, …]`: the bytes, then PLEN (30_encoding.md R113). -/
def pkbLines (q : List Byte) : Option (List ScriptLine) :=
  (indexedLines ScriptLine.wrb 0 q).map (fun ls => ls ++ [.wr .plen (BitVec.ofNat 32 q.length)])

/-- `exc [(p0, v0), …]`: the entries, then EXCNT (30_encoding.md R113). -/
def excLines (x : List (Word × Word)) : Option (List ScriptLine) :=
  (indexedLines (fun k (e : Word × Word) => ScriptLine.wrx k e.1 e.2) 0 x).map
    (fun ls => ls ++ [.wr .excnt (BitVec.ofNat 32 x.length)])

end Sys2Proof.Machine
end

