-- ==== Sys2Proof/Machine/Frame.lean ====
section
/-! DEFINITION. The frame of source section 6, the serial layout of an EncodedBlock (30_encoding.md R108 to R111). No command
reads or writes it; a platform saves and loads it with host accesses (R109). -/

namespace Sys2Proof.Machine

/-- The four bytes of a field, little-endian (30_encoding.md R108). -/
def littleEndian (v : Word) : List Byte := (List.range 4).map (fun k => v.extractLsb' (8 * k) 8)

/-- The frame of an EncodedBlock: base width, exception count, entries, packed bytes (30_encoding.md R108). -/
def frameBytes (e : EncodedBlock) : List Byte :=
  BitVec.ofNat 8 e.baseWidth ::
    (littleEndian (BitVec.ofNat 32 e.exceptions.length)
      ++ (e.exceptions.flatMap (fun x => littleEndian x.1 ++ littleEndian x.2) ++ e.packed))

/-- A little-endian field and the bytes after it. -/
def takeField : List Byte → Option (Word × List Byte)
  | a :: b :: c :: d :: rest => some (d ++ c ++ b ++ a, rest)
  | _ => none

/-- So many entries and the bytes after them. -/
def takeEntries : Nat → List Byte → Option (List (Word × Word) × List Byte)
  | 0, q => some ([], q)
  | n + 1, q =>
    match takeField q with
    | none => none
    | some (p, q1) =>
      match takeField q1 with
      | none => none
      | some (v, q2) => (takeEntries n q2).map (fun r => ((p, v) :: r.1, r.2))

/-- The EncodedBlock of a frame. A frame that ends inside its header or an entry, or whose first byte is above 32, is
refused (30_encoding.md R110). -/
def frameParse : List Byte → Option EncodedBlock
  | [] => none
  | w :: rest =>
    if Config.WMAX < w.toNat then none
    else
      match takeField rest with
      | none => none
      | some (n, q) =>
        (takeEntries n.toNat q).map (fun r => { baseWidth := w.toNat, packed := r.2, exceptions := r.1 })

/-- The frame of what the core holds, laid out from WIDTH, EXCNT, the entries and the packed bytes (30_encoding.md R109). -/
def State.saveFrame (s : State) : List Byte := frameBytes s.encoded

/-- The host writes that load an EncodedBlock: WIDTH, the entries and EXCNT, the bytes and PLEN; none when it does not fit
the core's buffers (30_encoding.md R109). -/
def loadLines (e : EncodedBlock) : Option (List ScriptLine) :=
  match excLines e.exceptions, pkbLines e.packed with
  | some x, some q => some (.wr .width (BitVec.ofNat 32 e.baseWidth) :: (x ++ q))
  | _, _ => none

end Sys2Proof.Machine
end

