-- ==== Sys2Proof/Machine/Platform.lean ====
section
/-! DEFINITION. A platform with several cores (20_memory.md R79, 60_exceptions.md R263): each is a full copy of the state, and
one step moves one of them. -/

namespace Sys2Proof.Machine

/-- The cores of a platform, by number. The number is the platform's; no core sees it (60_exceptions.md R263). -/
abbrev Platform := List State

/-- One step of core `k`; a number no core has moves nothing. -/
def stepInstance (k : Nat) (p : Platform) : Host.Outcome Platform Fault Refusal :=
  match p[k]? with
  | none => .next p
  | some s =>
    match step s with
    | .next t => .next (p.set k t)
    | .fault f => .fault f
    | .refused r => .refused r

end Sys2Proof.Machine
end

