-- ==== Sys2Proof/Safety.lean ====
section
/-! DEFINITION. What counts as a safe run, in the terms the statements use: the hazards a host must respect, the operands a
command needs written, the invariant of the machine, and agreement of two states on a command's inputs. -/

namespace Sys2Proof.Machine

/-- A host access that BUSY forbids: everything but a read of STATUS (70_reset_and_hazards.md R290, 93_implementation_defined.md
U4). -/
def Turn.forbiddenInBusy : Turn → Bool
  | .read l => decide (l ≠ .reg .status)
  | .write _ => true
  | .reset => false
  | .core => false

/-- The next turn keeps "hands off while busy" (70_reset_and_hazards.md R290), the window being the time in BUSY (DESIGN CHOICE,
log 22). -/
def State.hazardFree (s : State) : Bool :=
  match s.phase, s.agenda with
  | .busy, t :: _ => !t.forbiddenInBusy
  | _, _ => true

/-- A step is safe when it has a next state. -/
def State.Safe (s : State) : Prop := ∃ t, step s = .next t

/-- So many steps, stopping at the first that has no next state: a run (20_memory.md R74). -/
def runSteps : Nat → State → Host.Outcome State Fault Refusal
  | 0, s => .next s
  | n + 1, s =>
    match step s with
    | .next t => runSteps n t
    | .fault f => .fault f
    | .refused r => .refused r

/-- The element at an index has been written since the last reset, by the host or by a successful command: it is listed, and
its value is not what a failed command left (70_reset_and_hazards.md R285; log 21). -/
def written {α : Type} (m : Cells α) (marks : List Nat) (k : Nat) : Bool := (cellFind k m).isSome && !marks.contains k

/-- The location has been written in the sense of 70_reset_and_hazards.md R285. The reset writes the registers; a failed
command can leave WIDTH, PLEN and EXCNT unspecified again (40_command_execution.md R130; log 21). -/
def State.writtenAt (s : State) : Loc → Bool
  | .reg r => !s.lost.has (.reg r)
  | .blk i => written s.blk s.lost.lanes i.val
  | .pkb j => written s.pkb s.lost.bytes j.val
  | .exp k => written s.exp s.lost.positions k.val
  | .exv k => written s.exv s.lost.values k.val

/-- Every lane of the block operand has been written. -/
def State.blockWritten (s : State) : Bool := (List.range s.count.toNat).all (written s.blk s.lost.lanes)

/-- Every byte that the command needs has been written. -/
def State.neededBytesWritten (s : State) : Bool := (List.range s.need).all (written s.pkb s.lost.bytes)

/-- Every exception entry of the operand has been written, position and value. -/
def State.entriesWritten (s : State) : Bool :=
  (List.range s.excnt.toNat).all
    (fun k => written s.exp s.lost.positions k && written s.exv s.lost.values k)

/-- What must be initialised before the command is issued has been, row by row (70_reset_and_hazards.md R285). -/
def operandsWritten (i : Instr) (s : State) : Bool :=
  match i with
  | .selw => s.blockWritten
  | .pack => !s.lost.width && s.blockWritten
  | .unpk => !s.lost.width && !s.lost.plen && s.neededBytesWritten
  | .penc => s.blockWritten
  | .pdec => !s.lost.width && !s.lost.plen && !s.lost.excnt && s.neededBytesWritten && s.entriesWritten

/-- The invariant every step keeps: each buffer is in canonical form within its index range (20_memory.md R60), the result
code is 0 while a command is in flight (10_state.md R25), the draw of the last reset lies before the next one, and the marks of
what failed commands left unspecified are in canonical form. -/
structure State.Inv (s : State) : Prop where
  blk : cellsWf s.blk = true
  pkb : Memory.wf s.pkb = true
  exp : cellsWf s.exp = true
  exv : cellsWf s.exv = true
  busyCode : s.phase = .busy → s.code = .ok
  draws : s.epoch < s.draws
  lost : s.lost.wf = true

/-- Two states agree on every location command `i` reads from the first (40_command_execution.md R127). -/
def AgreeOnInputs (i : Instr) (s t : State) : Prop :=
  ∀ l : Loc, readsLoc i s l = true → s.elementAt l = t.elementAt l

end Sys2Proof.Machine
end

