-- ==== Sys2Proof/Certificates/Slice0/Obligations.lean ====
section
/-! DEFINITION. The statements for the provers. Each docstring names the rule or section of the spec it formalises, and the
log entry of the model's own convention where it rests on one. -/

open Sys2Proof Sys2Proof.Machine

/-! ### Encoding -/

/-- 30_encoding.md section 3: the five command words, and words of section 3.6 of 95_test_vectors.md that are illegal. -/
def Obligations.CommandTableWordsDecode : Prop :=
  decode 0x00000001#32 = some .selw ∧ decode 0x00000002#32 = some .pack ∧ decode 0x00000003#32 = some .unpk ∧
  decode 0x00000004#32 = some .penc ∧ decode 0x00000005#32 = some .pdec ∧
  decode 0x00000000#32 = none ∧ decode 0x00000006#32 = none ∧ decode 0x00000007#32 = none ∧
  decode 0x00000009#32 = none ∧ decode 0x80000001#32 = none ∧ decode 0xFFFFFFFF#32 = none

/-- 30_encoding.md R92: `decode_cmd` on every word, and the legal words. -/
def Obligations.DecodeIsTotalByFields : Prop :=
  ∀ c : Word,
    decode c =
      (if c.toNat / 8 ≠ 0 then none
      else if c.toNat % 8 = 1 then some .selw
      else if c.toNat % 8 = 2 then some .pack
      else if c.toNat % 8 = 3 then some .unpk
      else if c.toNat % 8 = 4 then some .penc
      else if c.toNat % 8 = 5 then some .pdec
      else none) ∧
    ((decode c).isSome = true ↔ 1 ≤ c.toNat ∧ c.toNat ≤ 5)

/-- 30_encoding.md sections 1, 3 and 4: decoding the encoding of a command gives it back, a word decodes to a command only
if it is that command's encoding, and the legal words of WellFormed are exactly those that decode. -/
def Obligations.DecodeAndEncodeAgree : Prop :=
  ∀ (c : Word) (i : Instr),
    (decode c = some i ↔ c = encode i) ∧ decodeTableWord 32 (encode i).toNat = some i ∧
    WellFormed.word c = (decode c).isSome

/-! ### Steps of the machine -/

/-- 40_command_execution.md section 2: a step in BUSY whose next turn is the core's (it stands first in the agenda, or
nothing is left in it: the model's convention, log 1) is `exec` of the decoded command; in IDLE, which has no step of the
core's own (R132), the core's turn changes nothing but the agenda. -/
def Obligations.StepRunsTheDecodedCommand : Prop :=
  ∀ s : State, (s.agenda = [] ∨ ∃ rest, s.agenda = .core :: rest) →
    (∀ i, s.phase = .busy → decode s.cmdl = some i → step s = exec i { s with agenda := s.agenda.tail }) ∧
    (s.phase = .idle → step s = .next { s with agenda := s.agenda.tail })

/-- 40_command_execution.md R124: an illegal word completes with code 5 and changes nothing else (CMDL in IDLE is left open,
93_implementation_defined.md U1). -/
def Obligations.IllegalWordCompletesWithCodeFive : Prop :=
  ∀ s : State,
    (s.cmdl.toNat % 8 = 0 ∨ s.cmdl.toNat % 8 = 6 ∨ s.cmdl.toNat % 8 = 7 ∨ s.cmdl.toNat / 8 ≠ 0) →
    (∃ v, complete s = .next { s with cmdl := v, code := .illegalCommand, phase := .idle }) ∧
    ResultCode.illegalCommand.bits = 5

/-- 40_command_execution.md section 1: `Issue(c)` as a step (the host's turn stands in the agenda, log 1). -/
def Obligations.IssueStepLatchesAnyWord : Prop :=
  ∀ (s : State) (c : Word) (rest : List Turn),
    s.phase = .idle → s.agenda = .write (.reg .cmd c) :: rest →
    step s = .next { s with cmdl := c, code := .ok, phase := .busy, agenda := rest }

/-- 10_state.md section 8, 20_memory.md section 2: in IDLE every location can be read, and STATUS in either phase; the answer
is the element, a second read answers the same, and nothing of the core changes (answers are the model's record, log 3). -/
def Obligations.HostReadAnswersAndChangesNothing : Prop :=
  ∀ (s : State) (l : Loc) (rest : List Turn),
    (s.phase = .idle ∨ l = .reg .status) → s.agenda = .read l :: rest →
    step s = .next { s with agenda := rest, answers := s.elementAt l :: s.answers } ∧
    (∀ rest', rest = .read l :: rest' →
      runSteps 2 s = .next { s with agenda := rest', answers := s.elementAt l :: s.elementAt l :: s.answers }) ∧
    s.elementAt (.reg .cmd) = .word 0 ∧ s.elementAt (.reg .width) = .word s.width ∧
    s.elementAt (.reg .count) = .word s.count ∧ s.elementAt (.reg .budget) = .word s.budget ∧
    s.elementAt (.reg .plen) = .word s.plen ∧ s.elementAt (.reg .excnt) = .word s.excnt

/-- 10_state.md section 4: the fields of a read of STATUS, and its value while BUSY with the code cleared at issue;
60_exceptions.md section 2: the numbers of the six result codes. -/
def Obligations.StatusWordFields : Prop :=
  ∀ s : State,
    s.elementAt (.reg .status) = .word s.statusWord ∧
    s.statusWord.getLsbD 31 = decide (s.phase = .busy) ∧
    (∀ k, 3 ≤ k → k ≤ 30 → s.statusWord.getLsbD k = false) ∧
    s.statusWord.extractLsb' 0 3 = s.code.bits ∧
    ResultCode.ok.bits = 0 ∧ ResultCode.widthOverflow.bits = 1 ∧ ResultCode.truncatedBuffer.bits = 2 ∧
    ResultCode.budgetUnreachable.bits = 3 ∧ ResultCode.positionOutOfRange.bits = 4 ∧
    ResultCode.illegalCommand.bits = 5 ∧
    (∀ c : Word, (s.issue c).statusWord = 0x80000000#32)

/-- 10_state.md section 8: a host write other than to CMD replaces its element and no other, except that a write to STATUS
is ignored (section 4); 70_reset_and_hazards.md section 2: the element then counts as written, and what else was written
stays so (log 21). The host's turn stands in the agenda (log 1). -/
def Obligations.HostWriteReplacesOneElement : Prop :=
  ∀ (s : State) (w : Store) (rest : List Turn),
    s.phase = .idle → s.agenda = .write w :: rest → w.target ≠ .reg .cmd →
    ∃ t, step s = .next t ∧ t.agenda = rest ∧ t.phase = .idle ∧ t.code = s.code ∧
      t.answers = s.answers ∧ t.epoch = s.epoch ∧ t.draws = s.draws ∧
      (w.target ≠ .reg .status → t.elementAt w.target = w.datum) ∧
      (∀ l, l ≠ w.target → t.elementAt l = s.elementAt l) ∧
      (∀ l, t.writtenAt l = (s.writtenAt l || decide (l = w.target))) ∧
      (w.target = .reg .status → t = { s with agenda := rest })

/-- 40_command_execution.md section 1, 93_implementation_defined.md U4: a step is refused exactly when the core is BUSY and
the next turn (log 1) is a host access other than a read of STATUS; no other step lacks a next state (log 8). That the
hands-off window ends with BUSY is the model's choice (DESIGN CHOICE, log 22): 70_reset_and_hazards.md section 3 runs it on to
the first read of STATUS that returns bit 31 = 0. -/
def Obligations.OnlyHostAccessInBusyIsRefused : Prop :=
  ∀ s : State,
    (step s = .refused .hostAccessWhileBusy ↔
      s.phase = .busy ∧ ∃ rest, (∃ w, s.agenda = .write w :: rest) ∨
        ∃ l, s.agenda = .read l :: rest ∧ l ≠ .reg .status) ∧
    (s.hazardFree = true ↔ ∃ t, step s = .next t)

/-- 70_reset_and_hazards.md section 1: the platform's reset in any phase (its turn stands in the agenda, log 1); nothing is
written in any buffer afterwards, so that each element is a free value of the new draw (log 4). -/
def Obligations.ResetStepClearsInEitherPhase : Prop :=
  ∀ (s : State) (rest : List Turn),
    s.agenda = .reset :: rest →
    ∃ t, step s = .next t ∧ t.phase = .idle ∧ t.statusWord = 0 ∧ t.width = 0 ∧ t.count = 0 ∧ t.budget = 0 ∧
      t.plen = 0 ∧ t.excnt = 0 ∧ t.blk = [] ∧ t.pkb = [] ∧ t.exp = [] ∧ t.exv = [] ∧ t.epoch = s.draws ∧
      t.draws = s.draws + 1 ∧ t.lost = Lost.nothing ∧ t.agenda = rest ∧ t.answers = s.answers

/-- 10_state.md section 9: the values the spec gives after reset. -/
def Obligations.ResetStateHoldsSpecValues : Prop :=
  State.reset.phase = .idle ∧ State.reset.elementAt (.reg .status) = .word 0 ∧ State.reset.width = 0 ∧
  State.reset.count = 0 ∧ State.reset.budget = 0 ∧ State.reset.plen = 0 ∧ State.reset.excnt = 0 ∧
  State.reset.blk = [] ∧ State.reset.pkb = [] ∧ State.reset.exp = [] ∧ State.reset.exv = []

/-- 70_reset_and_hazards.md section 2: every command issued straight after reset is well defined and completes with code 0
(SELW gives WIDTH 0, PACK gives PLEN 0, UNPK and PDEC write nothing, PENC gives WIDTH, PLEN and EXCNT 0; CMDL in IDLE is
left open, U1), its operands being initialised. -/
def Obligations.CommandsAfterResetSucceedAndLeaveRegistersZero : Prop :=
  ∀ i : Instr,
    operandsWritten i State.reset = true ∧
    ∃ v, runCommand (encode i) State.reset = .next { State.reset with cmdl := v }

/-- 10_state.md R36 with 20_memory.md R60: the state after reset meets the invariant. -/
def Obligations.InvariantHoldsAtReset : Prop := State.reset.Inv

/-- Every step keeps the invariant, from every state that meets it: the buffers stay in canonical form within their index
ranges (20_memory.md section 1), STATUS.CODE is 0 while a command is in flight (10_state.md section 4), and the draw of the
last reset lies before the next draw (log 7); the marks of what failures left unspecified stay in canonical form (log 21). -/
def Obligations.EveryStepKeepsInvariant : Prop :=
  ∀ s t : State, s.Inv → step s = .next t → t.Inv

/-- 10_state.md section 3: IDLE goes to BUSY only by issue, BUSY goes to IDLE only by completion or reset. -/
def Obligations.PhaseChangesOnlyByIssueCompletionReset : Prop :=
  ∀ s t : State, step s = .next t →
    (s.phase = .idle → t.phase = .busy →
      ∃ c rest, s.agenda = .write (.reg .cmd c) :: rest ∧ t.cmdl = c ∧ t.code = .ok) ∧
    (s.phase = .busy → t.phase = .idle →
      (∃ rest, s.agenda = .reset :: rest) ∨
      ((s.agenda = [] ∨ ∃ rest, s.agenda = .core :: rest) ∧
        complete { s with agenda := s.agenda.tail } = .next t))

/-- 40_command_execution.md section 1: every command completes. However often the host polls STATUS first (log 1), each poll
reads 0x80000000, the core completes with the next step, and what it answers is the completion of the state as issued. -/
def Obligations.EveryCommandCompletesAfterPolling : Prop :=
  ∀ (n : Nat) (s : State) (rest : List Turn),
    s.phase = .busy → s.code = .ok → s.agenda = List.replicate n (.read (.reg .status)) ++ .core :: rest →
    ∃ t, complete { s with
          agenda := rest, answers := List.replicate n (.word 0x80000000#32) ++ s.answers } = .next t ∧
      runSteps (n + 1) s = .next t ∧ t.phase = .idle

/-- 30_encoding.md section 7: the pseudo-line of a command, run from IDLE, is issue, polls, completion, and a last read of
STATUS that finds the result code (the polls are the model's parameter, log 16). -/
def Obligations.CommandLineRunsAndReadsResult : Prop :=
  ∀ (i : Instr) (polls : Nat) (s : State) (rest : List Turn),
    s.phase = .idle → s.agenda = scriptTurns (commandLines i polls) ++ rest →
    ∃ t, exec i { s with
          cmdl := encode i, code := .ok, phase := .busy, agenda := .read (.reg .status) :: rest,
          answers := List.replicate polls (.word 0x80000000#32) ++ s.answers } = .next t ∧
      runSteps (polls + 3) s =
        .next { t with agenda := rest, answers := .word t.statusWord :: t.answers } ∧
      t.statusWord = t.code.bits.setWidth 32

/-! ### Every completion -/

/-- 40_command_execution.md R131: issue followed by completion is one total function that leaves IDLE and changes STATUS.CODE
and the `w` locations on success, the failure range on failure, nothing beside STATUS.CODE on code 5. -/
def Obligations.CommandChangesOnlyItsOutputs : Prop :=
  ∀ (c : Word) (s : State),
    ∃ t, runCommand c s = .next t ∧ complete (s.issue c) = .next t ∧ t.phase = .idle ∧
      t.agenda = s.agenda ∧ t.answers = s.answers ∧ t.epoch = s.epoch ∧
      (t.code = .illegalCommand → t = { s with cmdl := t.cmdl, code := .illegalCommand, phase := .idle }) ∧
      (∀ i, decode c = some i → t.code = .ok →
        ∀ l, writesLoc i s t l = false → t.elementAt l = s.elementAt l) ∧
      (∀ i, decode c = some i → t.code ≠ .ok → t.code ≠ .illegalCommand →
        ∀ l, spoilsLoc i s l = false → t.elementAt l = s.elementAt l)

/-- 10_state.md R37: a completion never changes COUNT, BUDGET or any element its command reads, on success or failure. -/
def Obligations.CompletionNeverChangesInputs : Prop :=
  ∀ s : State,
    ∃ t, complete s = .next t ∧ t.count = s.count ∧ t.budget = s.budget ∧
      ∀ i, decode s.cmdl = some i → ∀ l, readsLoc i s l = true → t.elementAt l = s.elementAt l

/-- 40_command_execution.md R127: two states that agree on CMDL and on the command's inputs complete with the same code and,
on success, the same values in every location written. -/
def Obligations.ResultDependsOnlyOnInputs : Prop :=
  ∀ s t : State,
    s.cmdl = t.cmdl → (∀ i, decode s.cmdl = some i → AgreeOnInputs i s t) →
    ∃ s' t', complete s = .next s' ∧ complete t = .next t' ∧ t'.code = s'.code ∧
      (s'.code = .ok → ∀ i, decode s.cmdl = some i →
        ∀ l, writesLoc i s s' l = true → t'.elementAt l = s'.elementAt l)

/-- 70_reset_and_hazards.md section 2: a command whose operands have been initialised does the same whatever the reset left
in the buffers (the free values of the epoch, log 4), and gives the same code and outputs whatever stands in the locations
nobody has written, a failed command's range among them (log 21). After codes 1 to 4 only the code and what lies outside the
failure range is compared (93_implementation_defined.md U2); CMDL in IDLE is left open (U1). -/
def Obligations.InitialisedCommandIgnoresResetContent : Prop :=
  ∀ (i : Instr) (s : State), operandsWritten i s = true →
    (∀ e, ∃ t u, exec i s = .next t ∧ exec i { s with epoch := e } = .next u ∧ u.code = t.code ∧
      (t.code = .ok ∨ t.code = .illegalCommand → u = { t with cmdl := u.cmdl, epoch := e }) ∧
      (t.code ≠ .ok → t.code ≠ .illegalCommand →
        ∀ l, spoilsLoc i s l = false → s.writtenAt l = true → u.elementAt l = t.elementAt l)) ∧
    ∀ r : State, (∀ l, l ≠ .reg .status → s.writtenAt l = true → r.elementAt l = s.elementAt l) →
      ∃ t u, exec i s = .next t ∧ exec i r = .next u ∧ u.code = t.code ∧
        (t.code = .ok → ∀ l, writesLoc i s t l = true → u.elementAt l = t.elementAt l)

/-- 40_command_execution.md R125: the operand conditions of each command, and what happens when one fails (CMDL in IDLE is
left open, 93_implementation_defined.md U1). -/
def Obligations.IllegalOperandsCompleteWithCodeFive : Prop :=
  ∀ s : State,
    (∀ i, operandsLegal i s = false →
      ∃ v, exec i s = .next { s with cmdl := v, code := .illegalCommand, phase := .idle }) ∧
    (∀ i t, operandsLegal i s = true → exec i s = .next t → t.code ≠ .illegalCommand) ∧
    (operandsLegal .selw s = true ↔ s.count.toNat ≤ 256) ∧
    (operandsLegal .pack s = true ↔ s.count.toNat ≤ 256 ∧ s.width.toNat ≤ 32) ∧
    (operandsLegal .unpk s = true ↔ s.count.toNat ≤ 256 ∧ s.width.toNat ≤ 32 ∧ s.plen.toNat ≤ 1024) ∧
    (operandsLegal .penc s = true ↔ s.count.toNat ≤ 256) ∧
    (operandsLegal .pdec s = true ↔
      s.count.toNat ≤ 256 ∧ s.width.toNat ≤ 32 ∧ s.plen.toNat ≤ 1024 ∧ s.excnt.toNat ≤ 256)

/-- 60_exceptions.md R242: when a command completes with `WidthOverflow`. -/
def Obligations.WidthOverflowExactly : Prop :=
  ∀ s : State,
    (operandsLegal .pack s = true →
      ∃ t, exec .pack s = .next t ∧
        (t.code = .widthOverflow ↔ ∃ i < s.count.toNat, 2 ^ s.width.toNat ≤ (s.laneAt i).toNat)) ∧
    (s.width.toNat = 32 ∨ s.count = 0 → ∀ t, exec .pack s = .next t → t.code ≠ .widthOverflow) ∧
    (∀ i t, i ≠ .pack → exec i s = .next t → t.code ≠ .widthOverflow)

/-- 60_exceptions.md R243: when a command completes with `TruncatedBuffer`. -/
def Obligations.TruncatedBufferExactly : Prop :=
  ∀ (s : State) (i : Instr),
    ((i = .unpk ∨ i = .pdec) → operandsLegal i s = true →
      ∃ t, exec i s = .next t ∧
        (t.code = .truncatedBuffer ↔ s.plen.toNat < ceilDiv (s.count.toNat * s.width.toNat) 8)) ∧
    (s.width = 0 ∨ s.count = 0 → ∀ t, exec i s = .next t → t.code ≠ .truncatedBuffer) ∧
    (∀ t, i ≠ .unpk → i ≠ .pdec → exec i s = .next t → t.code ≠ .truncatedBuffer)

/-- 60_exceptions.md R244: when a command completes with `BudgetUnreachable`; no other command reads BUDGET: with any other
BUDGET it has the same code, on codes 0 and 5 the same state but for BUDGET, and on codes 1 to 4 the same elements outside its
failure range, of which nothing is said (93_implementation_defined.md U2; CMDL in IDLE is left open, U1). -/
def Obligations.BudgetUnreachableExactly : Prop :=
  ∀ (s : State) (i : Instr),
    (operandsLegal .penc s = true →
      ∃ t, exec .penc s = .next t ∧ (t.code = .budgetUnreachable ↔ s.budget.getLsbD 31 = true)) ∧
    (i ≠ .penc → ∀ v : Word,
      ∃ t u, exec i s = .next t ∧ exec i { s with budget := v } = .next u ∧ t.code ≠ .budgetUnreachable ∧
        u.code = t.code ∧
        (t.code = .ok ∨ t.code = .illegalCommand → u = { t with cmdl := u.cmdl, budget := v }) ∧
        (t.code ≠ .ok → t.code ≠ .illegalCommand →
          ∀ l, l ≠ .reg .budget → spoilsLoc i s l = false → u.elementAt l = t.elementAt l))

/-- 60_exceptions.md R245: when a command completes with `PositionOutOfRange`. -/
def Obligations.PositionOutOfRangeExactly : Prop :=
  ∀ s : State,
    (operandsLegal .pdec s = true →
      ∃ t, exec .pdec s = .next t ∧
        (t.code = .positionOutOfRange ↔
          ceilDiv (s.count.toNat * s.width.toNat) 8 ≤ s.plen.toNat ∧
          ∃ k < s.excnt.toNat, s.count.toNat ≤ (s.posAt k).toNat)) ∧
    (∀ i t, i ≠ .pdec → exec i s = .next t → t.code ≠ .positionOutOfRange)

/-- 60_exceptions.md R246: when a completion answers `IllegalCommand`. -/
def Obligations.IllegalCommandExactly : Prop :=
  ∀ s : State,
    ∃ t, complete s = .next t ∧
      (t.code = .illegalCommand ↔
        decode s.cmdl = none ∨ ∃ i, decode s.cmdl = some i ∧ operandsLegal i s = false)

/-- 60_exceptions.md R248: which command can complete with which code, in both directions, and illegal words. -/
def Obligations.CodeTableIsExact : Prop :=
  (∀ (i : Instr) (c : ResultCode),
    (∃ s t : State, exec i s = .next t ∧ t.code = c) ↔
      c = .ok ∨ c = .illegalCommand ∨
      (i = .pack ∧ c = .widthOverflow) ∨ (i = .unpk ∧ c = .truncatedBuffer) ∨
      (i = .penc ∧ c = .budgetUnreachable) ∨
      (i = .pdec ∧ (c = .truncatedBuffer ∨ c = .positionOutOfRange))) ∧
  (∀ s t : State, decode s.cmdl = none → complete s = .next t → t.code = .illegalCommand)

/-! ### What each command writes

CMDL in IDLE is left open (93_implementation_defined.md U1), so these statements give it no value. The last clause of each
says which locations then count as written (70_reset_and_hazards.md section 2; `State.lost` is the model's own, log 21). -/

/-- 41_width_select.md section 1: SELW completes whenever COUNT is legal; WIDTH becomes the least width every lane below COUNT
fits, and nothing else but STATUS.CODE and the phase changes. -/
def Obligations.SelwWritesLeastFittingWidth : Prop :=
  ∀ s : State, s.count.toNat ≤ 256 →
    ∃ t, exec .selw s = .next t ∧
      t = { s with cmdl := t.cmdl, lost := t.lost, code := .ok, phase := .idle, width := t.width } ∧
      t.width.toNat ≤ 32 ∧
      (∀ i < s.count.toNat, (s.laneAt i).toNat < 2 ^ t.width.toNat) ∧
      (∀ w < t.width.toNat, ∃ i < s.count.toNat, 2 ^ w ≤ (s.laneAt i).toNat) ∧
      ∀ l, t.writtenAt l = (s.writtenAt l || writesLoc .selw s t l)

/-- 42_bitpack.md section 1, 20_memory.md section 3: PACK completes with code 0 when its operands are legal and every lane
fits; PLEN, the placed bits, the zero padding, and what stays. -/
def Obligations.PackWritesTheBitStream : Prop :=
  ∀ s : State, s.count.toNat ≤ 256 → s.width.toNat ≤ 32 →
    (∀ i < s.count.toNat, (s.laneAt i).toNat < 2 ^ s.width.toNat) →
    ∃ t, exec .pack s = .next t ∧
      t = { s with cmdl := t.cmdl, lost := t.lost, code := .ok, phase := .idle, plen := t.plen, pkb := t.pkb } ∧
      t.plen.toNat = ceilDiv (s.count.toNat * s.width.toNat) 8 ∧
      (∀ i < s.count.toNat, ∀ k < s.width.toNat,
        (t.byteAt ((i * s.width.toNat + k) / 8)).getLsbD ((i * s.width.toNat + k) % 8) = (s.laneAt i).getLsbD k) ∧
      (∀ p, s.count.toNat * s.width.toNat ≤ p → p < 8 * t.plen.toNat →
        (t.byteAt (p / 8)).getLsbD (p % 8) = false) ∧
      (∀ j, t.plen.toNat ≤ j → t.byteAt j = s.byteAt j) ∧
      ∀ l, t.writtenAt l = (s.writtenAt l || writesLoc .pack s t l)

/-- 43_bitunpack.md section 1: UNPK completes with code 0 when its operands are legal and PLEN covers the need; the lanes below
COUNT, zero-extended, and what stays. -/
def Obligations.UnpkWritesTheFields : Prop :=
  ∀ s : State, s.count.toNat ≤ 256 → s.width.toNat ≤ 32 → s.plen.toNat ≤ 1024 →
    ceilDiv (s.count.toNat * s.width.toNat) 8 ≤ s.plen.toNat →
    ∃ t, exec .unpk s = .next t ∧
      t = { s with cmdl := t.cmdl, lost := t.lost, code := .ok, phase := .idle, blk := t.blk } ∧
      (∀ i < s.count.toNat, ∀ k < 32,
        (t.laneAt i).getLsbD k =
          (decide (k < s.width.toNat) &&
            (s.byteAt ((i * s.width.toNat + k) / 8)).getLsbD ((i * s.width.toNat + k) % 8))) ∧
      (∀ i, s.count.toNat ≤ i → t.laneAt i = s.laneAt i) ∧
      ∀ l, t.writtenAt l = (s.writtenAt l || writesLoc .unpk s t l)

/-- 44_pfor_codec.md section 1: PENC completes with code 0 when COUNT is legal and the budget is not negative; the least width
that meets the budget, the outliers in ascending order with their full values, the clamped base, and what stays. -/
def Obligations.PencWritesTheEncodedBlock : Prop :=
  ∀ s : State, s.count.toNat ≤ 256 → 0 ≤ s.budget.toInt →
    ∃ t, exec .penc s = .next t ∧
      t = { s with
        cmdl := t.cmdl, lost := t.lost, code := .ok, phase := .idle, width := t.width, plen := t.plen, excnt := t.excnt,
        pkb := t.pkb, exp := t.exp, exv := t.exv } ∧
      t.width.toNat ≤ 32 ∧
      (((List.range s.count.toNat).countP (fun i => decide (2 ^ t.width.toNat ≤ (s.laneAt i).toNat)) : Nat) : Int)
        ≤ s.budget.toInt ∧
      (∀ w < t.width.toNat,
        s.budget.toInt <
          (((List.range s.count.toNat).countP (fun i => decide (2 ^ w ≤ (s.laneAt i).toNat)) : Nat) : Int)) ∧
      t.excnt.toNat = (List.range s.count.toNat).countP (fun i => decide (2 ^ t.width.toNat ≤ (s.laneAt i).toNat)) ∧
      (∀ k < t.excnt.toNat,
        (t.posAt k).toNat < s.count.toNat ∧ t.valAt k = s.laneAt (t.posAt k).toNat ∧
        2 ^ t.width.toNat ≤ (t.valAt k).toNat) ∧
      (∀ k l, k < l → l < t.excnt.toNat → (t.posAt k).toNat < (t.posAt l).toNat) ∧
      t.plen.toNat = ceilDiv (s.count.toNat * t.width.toNat) 8 ∧
      (∀ i < s.count.toNat, ∀ k < t.width.toNat,
        (t.byteAt ((i * t.width.toNat + k) / 8)).getLsbD ((i * t.width.toNat + k) % 8) =
          (decide ((s.laneAt i).toNat < 2 ^ t.width.toNat) && (s.laneAt i).getLsbD k)) ∧
      (∀ p, s.count.toNat * t.width.toNat ≤ p → p < 8 * t.plen.toNat →
        (t.byteAt (p / 8)).getLsbD (p % 8) = false) ∧
      (∀ j, t.plen.toNat ≤ j → t.byteAt j = s.byteAt j) ∧
      (∀ k, t.excnt.toNat ≤ k → t.posAt k = s.posAt k ∧ t.valAt k = s.valAt k) ∧
      ∀ l, t.writtenAt l = (s.writtenAt l || writesLoc .penc s t l)

/-- 44_pfor_codec.md section 2: PDEC completes with code 0 when its operands are legal, PLEN covers the need and every position
is below COUNT; each lane is the last exception that names it, else the unpacked field, and what stays. -/
def Obligations.PdecWritesTheOverlaidBlock : Prop :=
  ∀ s : State, s.count.toNat ≤ 256 → s.width.toNat ≤ 32 → s.plen.toNat ≤ 1024 → s.excnt.toNat ≤ 256 →
    ceilDiv (s.count.toNat * s.width.toNat) 8 ≤ s.plen.toNat →
    (∀ k < s.excnt.toNat, (s.posAt k).toNat < s.count.toNat) →
    ∃ t, exec .pdec s = .next t ∧
      t = { s with cmdl := t.cmdl, lost := t.lost, code := .ok, phase := .idle, blk := t.blk } ∧
      (∀ k < s.excnt.toNat, (∀ l, k < l → l < s.excnt.toNat → s.posAt l ≠ s.posAt k) →
        t.laneAt (s.posAt k).toNat = s.valAt k) ∧
      (∀ i < s.count.toNat, (∀ k < s.excnt.toNat, (s.posAt k).toNat ≠ i) → ∀ k < 32,
        (t.laneAt i).getLsbD k =
          (decide (k < s.width.toNat) &&
            (s.byteAt ((i * s.width.toNat + k) / 8)).getLsbD ((i * s.width.toNat + k) % 8))) ∧
      (∀ i, s.count.toNat ≤ i → t.laneAt i = s.laneAt i) ∧
      ∀ l, t.writtenAt l = (s.writtenAt l || writesLoc .pdec s t l)

/-- 40_command_execution.md section 2, 60_exceptions.md section 5: a command that fails with an error kind leaves every location
outside its failure range alone: PACK the bytes from the need on, UNPK and PDEC the lanes from COUNT on, PENC the bytes from
`4 * COUNT` and the entries from COUNT on, and each of them every other field (the free values take one draw, log 6). The
range does not count as written, and what else was written stays so (70_reset_and_hazards.md section 2; log 21). -/
def Obligations.FailureStaysInsideItsRange : Prop :=
  ∀ (i : Instr) (s : State),
    ∃ t, exec i s = .next t ∧ (t.code ≠ .ok → t.code ≠ .illegalCommand →
      t = { s with
        cmdl := t.cmdl, lost := t.lost, code := t.code, phase := .idle, width := t.width, plen := t.plen,
        excnt := t.excnt, blk := t.blk, pkb := t.pkb, exp := t.exp, exv := t.exv, draws := s.draws + 1 } ∧
      (∀ l, l ≠ .reg .status → t.writtenAt l = (s.writtenAt l && !spoilsLoc i s l)) ∧
      (i = .pack → t.width = s.width ∧ t.excnt = s.excnt ∧ t.blk = s.blk ∧
        (∀ j, ceilDiv (s.count.toNat * s.width.toNat) 8 ≤ j → t.byteAt j = s.byteAt j) ∧
        (∀ k, t.posAt k = s.posAt k ∧ t.valAt k = s.valAt k)) ∧
      (i = .unpk ∨ i = .pdec → t.width = s.width ∧ t.plen = s.plen ∧ t.excnt = s.excnt ∧
        (∀ j, s.count.toNat ≤ j → t.laneAt j = s.laneAt j) ∧
        (∀ j, t.byteAt j = s.byteAt j) ∧ (∀ k, t.posAt k = s.posAt k ∧ t.valAt k = s.valAt k)) ∧
      (i = .penc →
        (∀ j, t.laneAt j = s.laneAt j) ∧
        (∀ j, 4 * s.count.toNat ≤ j → t.byteAt j = s.byteAt j) ∧
        (∀ k, s.count.toNat ≤ k → t.posAt k = s.posAt k ∧ t.valAt k = s.valAt k)))

/-! ### The function layer -/

/-- 41_width_select.md R144: the three equal forms of `selectWidth`. -/
def Obligations.SelectWidthThreeForms : Prop :=
  ∀ b : List Word,
    selectWidth b = bitlen (b.foldr (fun v m => max v.toNat m) 0) ∧
    selectWidth b = b.foldr (fun v m => max (bitlen v.toNat) m) 0 ∧
    selectWidth b = bitlen (b.foldr (fun v r => v ||| r) 0).toNat

/-- 41_width_select.md R146: `pack(b, w)` is `Ok` exactly from `selectWidth(b)` on, and then the round trip holds. -/
def Obligations.SelectWidthIsLeastPackableWidth : Prop :=
  ∀ (b : List Word) (w : Nat), w ≤ 32 →
    ((∃ q, pack b w = .ok q) ↔ selectWidth b ≤ w) ∧
    (selectWidth b ≤ w → ∃ q, pack b w = .ok q ∧ unpack q w b.length = .ok b) ∧
    (w < selectWidth b → pack b w = .error .widthOverflow) ∧ selectWidth b ≤ 32

/-- 41_width_select.md R148: the four consequences. -/
def Obligations.SelectWidthConsequences : Prop :=
  (∀ b : List Word, selectWidth b = 0 ↔ ∀ v ∈ b, v = 0) ∧
  (∀ b c : List Word, selectWidth (b ++ c) = max (selectWidth b) (selectWidth c)) ∧
  (∀ b c : List Word, b.Perm c → selectWidth b = selectWidth c) ∧
  (∀ (b : List Word) (w : Nat), excess b w = 0 ↔ selectWidth b ≤ w) ∧
  (∀ b : List Word, ∃ e, encodeBlock b 0 = .ok e ∧ e.baseWidth = selectWidth b)

/-- 20_memory.md R64 and 42_bitpack.md R166: the length law. -/
def Obligations.PackedLengthLaw : Prop :=
  (∀ (b : List Word) (w : Nat) (q : List Byte), pack b w = .ok q → q.length = ceilDiv (b.length * w) 8) ∧
  (∀ n w, n = 0 ∨ w = 0 → packedLength n w = 0) ∧
  (∀ n, packedLength n 32 = 4 * n) ∧
  (∀ n w, n ≤ Config.NMAX → w ≤ 32 → packedLength n w ≤ Config.PKBMAX) ∧
  packedLength Config.NMAX 32 = Config.PKBMAX ∧ packedLength 128 7 = 112

/-- 20_memory.md R66: the packed buffer as one little-endian natural, and each element read back from it. -/
def Obligations.PackedBufferAsOneNumber : Prop :=
  ∀ (b : List Word) (w : Nat) (q : List Byte), pack b w = .ok q →
    q.foldr (fun byte n => byte.toNat + 256 * n) 0 = b.foldr (fun v n => v.toNat + 2 ^ w * n) 0 ∧
    ∀ i < b.length,
      (b.getD i 0).toNat = (q.foldr (fun byte n => byte.toNat + 256 * n) 0) / 2 ^ (i * w) % 2 ^ w

/-- 42_bitpack.md R167: the packer's round trip, for functions of any length and in the core: after a PACK that completed with
code 0, an UNPK that finds WIDTH, COUNT, PLEN and the bytes as the PACK left them gives the block back. -/
def Obligations.PackThenUnpackGivesTheBlockBack : Prop :=
  (∀ (b : List Word) (w : Nat), w ≤ 32 → (∀ v ∈ b, v.toNat < 2 ^ w) →
    ∃ q, pack b w = .ok q ∧ unpack q w b.length = .ok b) ∧
  (∀ s t u : State, exec .pack s = .next t → t.code = .ok →
    u.width = t.width → u.count = t.count → u.plen = t.plen → (∀ j, u.byteAt j = t.byteAt j) →
    ∃ v, exec .unpk u = .next v ∧ v.code = .ok ∧ ∀ i < s.count.toNat, v.laneAt i = s.laneAt i)

/-- 43_bitunpack.md R187: the converse round trip, exactly when the length is the need and the padding is zero; packing an
unpacked block never overflows. -/
def Obligations.UnpackThenPackGivesTheBytesBack : Prop :=
  ∀ (p : List Byte) (w c : Nat) (b : List Word), w ≤ 32 → unpack p w c = .ok b →
    (∃ q, pack b w = .ok q) ∧
    (pack b w = .ok p ↔
      p.length = ceilDiv (c * w) 8 ∧ ∀ r, c * w ≤ r → r < 8 * p.length → byteBit p r = false)

/-- 42_bitpack.md R169: `pack` is injective on blocks of one length, bytes being equal only for equal blocks. -/
def Obligations.PackIsInjective : Prop :=
  ∀ (b c : List Word) (w : Nat) (q : List Byte), w ≤ 32 → b.length = c.length →
    pack b w = .ok q → pack c w = .ok q → b = c

/-- 43_bitunpack.md R182: truncation is a check of lengths only, before any element is produced. -/
def Obligations.UnpackFailsExactlyWhenTruncated : Prop :=
  ∀ (p : List Byte) (w c : Nat),
    (unpack p w c = .error .truncatedBuffer ↔ p.length < ceilDiv (c * w) 8) ∧
    (ceilDiv (c * w) 8 ≤ p.length → ∃ b, unpack p w c = .ok b ∧ b.length = c) ∧
    (∀ k, unpack p w c = .error k → k = .truncatedBuffer)

/-- 43_bitunpack.md R183 and 20_memory.md R69: nothing but the needed bits is looked at. -/
def Obligations.UnpackReadsOnlyNeededBits : Prop :=
  ∀ (p q : List Byte) (w c : Nat),
    ceilDiv (c * w) 8 ≤ p.length → ceilDiv (c * w) 8 ≤ q.length →
    (∀ r < c * w, byteBit p r = byteBit q r) → unpack p w c = unpack q w c

/-- 43_bitunpack.md R184 and R185: width 0 gives zeros whatever the buffer; every element is below `2^w`; at width 32 an
element is four bytes, least significant first. -/
def Obligations.UnpackedElementsAreInRange : Prop :=
  (∀ (p : List Byte) (c : Nat), unpack p 0 c = .ok (List.replicate c 0)) ∧
  (∀ (p : List Byte) (w c : Nat) (b : List Word), unpack p w c = .ok b → ∀ v ∈ b, v.toNat < 2 ^ w) ∧
  (∀ (p : List Byte) (c : Nat) (b : List Word), unpack p 32 c = .ok b → ∀ i < c,
    (b.getD i 0).toNat =
      (p.getD (4 * i) 0).toNat + 256 * (p.getD (4 * i + 1) 0).toNat + 65536 * (p.getD (4 * i + 2) 0).toNat
        + 16777216 * (p.getD (4 * i + 3) 0).toNat)

/-- 43_bitunpack.md R186: a packed buffer short of its last byte is refused as truncated, as a function and in the core; no
other corruption is detected. -/
def Obligations.ShortenedBufferIsTruncated : Prop :=
  (∀ (b : List Word) (w : Nat) (q : List Byte), pack b w = .ok q → 1 ≤ q.length →
    unpack q.dropLast w b.length = .error .truncatedBuffer) ∧
  (∀ s t : State, exec .pack s = .next t → t.code = .ok → 1 ≤ t.plen.toNat →
    ∃ v, exec .unpk { t with plen := t.plen - 1 } = .next v ∧ v.code = .truncatedBuffer) ∧
  (∀ (p : List Byte) (w c : Nat), ceilDiv (c * w) 8 ≤ p.length → ∃ b, unpack p w c = .ok b)

/-- 44_pfor_codec.md R202: `encode` fails exactly on a negative budget, for every block, and in no other way. -/
def Obligations.EncodeFailsExactlyOnNegativeBudget : Prop :=
  ∀ (b : List Word) (budget : Int),
    (budget < 0 ↔ encodeBlock b budget = .error .budgetUnreachable) ∧
    (0 ≤ budget → ∃ e, encodeBlock b budget = .ok e) ∧
    ∀ k, encodeBlock b budget = .error k → k = .budgetUnreachable

/-- 44_pfor_codec.md R208: the six laws of `encode`. -/
def Obligations.EncodeLaws : Prop :=
  ∀ (b : List Word) (budget : Int) (e : EncodedBlock), encodeBlock b budget = .ok e →
    (e.baseWidth ≤ 32 ∧ (excess b e.baseWidth : Int) ≤ budget ∧
      (∀ w < e.baseWidth, budget < (excess b w : Int)) ∧
      ∀ (budget' : Int) (e' : EncodedBlock), budget ≤ budget' → encodeBlock b budget' = .ok e' →
        e'.baseWidth ≤ e.baseWidth) ∧
    (budget = 0 → e.baseWidth = selectWidth b ∧ e.exceptions = [] ∧ pack b (selectWidth b) = .ok e.packed) ∧
    ((excess b 0 : Int) ≤ budget ∨ (b.length : Int) ≤ budget →
      e.baseWidth = 0 ∧ e.packed = [] ∧ e.exceptions.map Prod.snd = b.filter (fun v => decide (v ≠ 0))) ∧
    ((e.exceptions.length : Int) ≤ budget ∧ e.exceptions.length = excess b e.baseWidth) ∧
    ((∀ x ∈ e.exceptions, 2 ^ e.baseWidth ≤ x.2.toNat) ∧ ∀ v ∈ baseBlock b e.baseWidth, v.toNat < 2 ^ e.baseWidth) ∧
    (0 < e.baseWidth → budget < (excess b (e.baseWidth - 1) : Int))

/-- 44_pfor_codec.md R209: the empty block. -/
def Obligations.EncodeEmptyBlock : Prop :=
  ∀ budget : Int,
    (0 ≤ budget → encodeBlock [] budget = .ok { baseWidth := 0, packed := [], exceptions := [] }) ∧
    (budget < 0 → encodeBlock [] budget = .error .budgetUnreachable)

/-- 44_pfor_codec.md R224: the PFor round trip, for blocks whose positions a `u32` can hold and in the core: after a PENC that
completed with code 0, a PDEC that finds WIDTH, COUNT, PLEN, EXCNT and the buffers as the PENC left them gives the block
back. -/
def Obligations.EncodeThenDecodeGivesTheBlockBack : Prop :=
  (∀ (b : List Word) (budget : Int), b.length ≤ 2 ^ 32 → 0 ≤ budget →
    ∃ e, encodeBlock b budget = .ok e ∧ decodeBlock e b.length = .ok b) ∧
  (∀ s t u : State, exec .penc s = .next t → t.code = .ok →
    u.width = t.width → u.count = t.count → u.plen = t.plen → u.excnt = t.excnt → (∀ j, u.byteAt j = t.byteAt j) →
    (∀ k, u.posAt k = t.posAt k) → (∀ k, u.valAt k = t.valAt k) →
    ∃ v, exec .pdec u = .next v ∧ v.code = .ok ∧ ∀ i < s.count.toNat, v.laneAt i = s.laneAt i)

/-- 44_pfor_codec.md R222 and R226: the order and the exact conditions of the errors of `decode`. -/
def Obligations.DecodeErrorsInOrder : Prop :=
  ∀ (e : EncodedBlock) (c : Nat),
    (decodeBlock e c = .error .truncatedBuffer ↔ e.packed.length < ceilDiv (c * e.baseWidth) 8) ∧
    (decodeBlock e c = .error .positionOutOfRange ↔
      ceilDiv (c * e.baseWidth) 8 ≤ e.packed.length ∧ ∃ x ∈ e.exceptions, c ≤ x.1.toNat) ∧
    (∀ k, decodeBlock e c = .error k → k = .truncatedBuffer ∨ k = .positionOutOfRange)

/-! ### The reference datapaths -/

/-- 41_width_select.md R147: the reduction tree computes `selectWidth` of the block, for every legal COUNT. -/
def Obligations.ReductionTreeComputesSelectWidth : Prop :=
  ∀ s : State, s.count.toNat ≤ Config.NMAX → treeWidth s = selectWidth s.block

/-- 42_bitpack.md R168: the shifter emits the bytes of `pack`. -/
def Obligations.ShifterComputesPack : Prop :=
  ∀ (b : List Word) (w : Nat), w ≤ 32 → (∀ v ∈ b, v.toNat < 2 ^ w) → pack b w = .ok (shifterPack b w)

/-- 43_bitunpack.md R188: the deserializer produces the elements of `unpack`. -/
def Obligations.DeserializerComputesUnpack : Prop :=
  ∀ (p : List Byte) (w c : Nat), w ≤ 32 → ceilDiv (c * w) 8 ≤ p.length →
    unpack p w c = .ok (deserializerUnpack p w c)

/-- 44_pfor_codec.md R211: the two-pass datapath computes `encode`. -/
def Obligations.TwoPassDatapathComputesEncode : Prop :=
  ∀ (b : List Word) (budget : Int), datapathEncode b budget = encodeBlock b budget

/-- 44_pfor_codec.md R225: the overlay mux equals the sequential overwrite, the largest index being the last write. -/
def Obligations.OverlayMuxEqualsSequentialOverwrite : Prop :=
  ∀ (base : List Word) (x : List (Word × Word)),
    overlay base.length base x = datapathOverlay base.length base x

/-! ### The frame, and several cores -/

/-- 30_encoding.md R108 and R110: the frame's length, and parsing a frame gives the EncodedBlock back; a frame cut inside its
header or entries, or with a first byte above 32, is refused. -/
def Obligations.FrameParsesBack : Prop :=
  ∀ e : EncodedBlock, e.baseWidth ≤ 32 → e.exceptions.length < 2 ^ 32 →
    (frameBytes e).length = 5 + 8 * e.exceptions.length + e.packed.length ∧
    frameParse (frameBytes e) = some e ∧
    (∀ n < 5 + 8 * e.exceptions.length, frameParse ((frameBytes e).take n) = none) ∧
    (∀ (w : Byte) (rest : List Byte), 32 < w.toNat → frameParse (w :: rest) = none)

/-- 30_encoding.md R111: the worked frame of the source's second scenario. -/
def Obligations.WorkedFrameBytes : Prop :=
  frameBytes { baseWidth := 0, packed := [], exceptions := [(50, 1000000)] } =
    [0x00, 0x01, 0x00, 0x00, 0x00, 0x32, 0x00, 0x00, 0x00, 0x40, 0x42, 0x0F, 0x00]

/-- 20_memory.md section 6, 60_exceptions.md section 8: a step of core `k` moves that core as `step` does, and leaves the
others alone; steps of different cores commute. -/
def Obligations.StepsOfDifferentCoresCommute : Prop :=
  (∀ (p : Platform) (k : Nat) (s : State), p[k]? = some s →
    (∀ t, step s = .next t →
      ∃ q, stepInstance k p = .next q ∧ q[k]? = some t ∧ q.length = p.length ∧ ∀ m, m ≠ k → q[m]? = p[m]?) ∧
    (∀ e, step s = .refused e → stepInstance k p = .refused e)) ∧
  ∀ (p q r : Platform) (k l : Nat), k ≠ l → stepInstance k p = .next q → stepInstance l p = .next r →
    (∃ u, stepInstance l q = .next u ∧ stepInstance k r = .next u) ∧ ∀ m, m ≠ k → q[m]? = p[m]?
end

