-- ==== Sys2Proof/Laws/Bits.lean ====
section
/-! SUPPORT. What the bit helpers compute: each function's bits, length and bound, said once. -/

namespace Sys2Proof.Machine

theorem natOfBits_lt (f : Nat → Bool) (n : Nat) : natOfBits f n < 2 ^ n := by
  induction n with
  | zero => simp [natOfBits]
  | succ n ih =>
    rw [natOfBits, Nat.pow_succ]
    split <;> omega

theorem testBit_natOfBits (f : Nat → Bool) (n k : Nat) :
    (natOfBits f n).testBit k = (decide (k < n) && f k) := by
  induction n with
  | zero => simp [natOfBits]
  | succ n ih =>
    have hlt := natOfBits_lt f n
    rw [natOfBits]
    by_cases hf : f n = true
    · rw [if_pos hf, Nat.add_comm]
      by_cases h : k = n
      · subst h
        rw [Nat.testBit_two_pow_add_eq]
        simp [Nat.testBit_lt_two_pow hlt, hf]
      · by_cases h2 : k < n
        · rw [Nat.testBit_two_pow_add_gt h2, ih]
          simp [h2, show k < n + 1 by omega]
        · rw [Nat.testBit_lt_two_pow]
          · simp [show ¬ k < n + 1 by omega]
          · calc 2 ^ n + natOfBits f n < 2 ^ n + 2 ^ n := by omega
              _ = 2 ^ (n + 1) := by rw [Nat.pow_succ]; omega
              _ ≤ 2 ^ k := Nat.pow_le_pow_right (by omega) (by omega)
    · rw [if_neg hf, Nat.add_zero, ih]
      by_cases h : k = n
      · subst h; simp [hf]
      · by_cases h2 : k < n
        · simp [h2, show k < n + 1 by omega]
        · simp [h2, show ¬ k < n + 1 by omega]

/-- `bitlen(v)` is the least `w` with `v < 2^w` (00_scope.md R10). -/
theorem bitlen_le_iff (v w : Nat) : bitlen v ≤ w ↔ v < 2 ^ w := by
  unfold bitlen
  by_cases h : v = 0
  · simp [h]
  · simp only [h, if_false]
    rw [← Nat.log2_lt h]
    omega

theorem lt_bitlen_iff (v w : Nat) : w < bitlen v ↔ 2 ^ w ≤ v := by
  have := bitlen_le_iff v w
  omega

theorem exceeds_iff (w : Nat) (v : Word) : exceeds w v = true ↔ 2 ^ w ≤ v.toNat := by simp [exceeds]

theorem exceeds_eq_false_iff (w : Nat) (v : Word) : exceeds w v = false ↔ v.toNat < 2 ^ w := by simp [exceeds]

/-- Nothing exceeds 32 bits (42_bitpack.md R162). -/
theorem exceeds_32 (v : Word) : exceeds 32 v = false := by
  rw [exceeds_eq_false_iff]; exact v.isLt

/-- Bit `r` of byte `j` of a packing is stream bit `8 * j + r` (20_memory.md R65). -/
theorem getLsbD_packedByte (b : List Word) (w j r : Nat) (hr : r < 8) :
    (packedByte b w j).getLsbD r = blockBit b w (8 * j + r) := by
  rw [packedByte, BitVec.getLsbD_ofNat, testBit_natOfBits]
  simp [hr]

/-- Bit `k` of a field is its stream bit, below the width; the rest is zero (43_bitunpack.md R181, R189). -/
theorem getLsbD_fieldAt (q : List Byte) (w i k : Nat) (hk : k < 32) :
    (fieldAt q w i).getLsbD k = (decide (k < w) && byteBit q (i * w + k)) := by
  rw [fieldAt, BitVec.getLsbD_ofNat, testBit_natOfBits]
  simp [hk]

theorem fieldAt_lt (q : List Byte) (w i : Nat) : (fieldAt q w i).toNat < 2 ^ w := by
  rw [fieldAt, BitVec.toNat_ofNat]
  exact Nat.lt_of_le_of_lt (Nat.mod_le _ _) (natOfBits_lt _ _)

theorem packedLength_eq (n w : Nat) : packedLength n w = (n * w + 7) / 8 := rfl

/-- The bits of a block fit its packed bytes, and the padding is less than a byte (20_memory.md R64, R67). -/
theorem packedLength_bounds (n w : Nat) : n * w ≤ 8 * packedLength n w ∧ 8 * packedLength n w < n * w + 8 := by
  rw [packedLength_eq]; omega

/-- The largest packing fits the buffer (00_scope.md R6, 20_memory.md R64). -/
theorem packedLength_le {n w : Nat} (hn : n ≤ Config.NMAX) (hw : w ≤ Config.WMAX) :
    packedLength n w ≤ Config.PKBMAX := by
  have h : n * w ≤ 256 * 32 := Nat.mul_le_mul hn hw
  rw [packedLength_eq]
  show _ ≤ 4 * 256
  omega

/-- Bit `k` of element `i` is stream bit `i * w + k` (20_memory.md R65). -/
theorem blockBit_element (b : List Word) (w i k : Nat) (hi : i < b.length) (hk : k < w) :
    blockBit b w (i * w + k) = (b.getD i 0).getLsbD k := by
  have h1 : i * w + k < b.length * w := by
    calc i * w + k < i * w + w := by omega
      _ = (i + 1) * w := by rw [Nat.add_mul, Nat.one_mul]
      _ ≤ b.length * w := Nat.mul_le_mul_right w hi
  have h2 : (i * w + k) / w = i := by
    rw [Nat.mul_comm, Nat.mul_add_div (by omega), Nat.div_eq_of_lt hk, Nat.add_zero]
  have h3 : (i * w + k) % w = k := by
    rw [Nat.mul_comm, Nat.mul_add_mod, Nat.mod_eq_of_lt hk]
  simp [blockBit, h1, h2, h3]

theorem blockBit_padding (b : List Word) (w p : Nat) (hp : b.length * w ≤ p) : blockBit b w p = false := by
  simp [blockBit, Nat.not_lt.mpr hp]

/-- Reading a stream bit of a packing gives the block's stream bit. -/
theorem byteBit_packed (b : List Word) (w n p : Nat) (hp : p < 8 * n) :
    byteBit ((List.range n).map (packedByte b w)) p = blockBit b w p := by
  have h1 : p / 8 < n := by omega
  have h2 : 8 * (p / 8) + p % 8 = p := Nat.div_add_mod p 8
  rw [byteBit, List.getD_eq_getElem?_getD, List.getElem?_map, List.getElem?_range h1]
  simp only [Option.map_some, Option.getD_some]
  rw [getLsbD_packedByte _ _ _ _ (Nat.mod_lt _ (by omega)), h2]

end Sys2Proof.Machine
end

