-- ==== Sys2Proof/Laws/Cells.lean ====
section
/-! SUPPORT. What the buffer operations do: reading after writing, and the canonical form they keep. -/

namespace Sys2Proof.Machine

variable {α : Type}

@[simp] theorem cellFind_nil (k : Nat) : cellFind k ([] : Cells α) = none := rfl

theorem cellFind_cons (k a : Nat) (v : α) (m : Cells α) :
    cellFind k ((a, v) :: m) = if a = k then some v else cellFind k m := rfl

@[simp] theorem cellFind_put_same (k : Nat) (v : α) (m : Cells α) : cellFind k (cellPut k v m) = some v := by
  induction m with
  | nil => simp [cellPut, cellFind]
  | cons c m ih =>
    obtain ⟨a, u⟩ := c
    unfold cellPut
    split
    · simp [cellFind]
    · split
      · simp [cellFind]
      · rename_i h1 h2
        rw [cellFind_cons, if_neg (fun h => h2 h.symm), ih]

theorem cellFind_put_other {k l : Nat} (h : l ≠ k) (v : α) (m : Cells α) :
    cellFind l (cellPut k v m) = cellFind l m := by
  induction m with
  | nil => simp [cellPut, cellFind, Ne.symm h]
  | cons c m ih =>
    obtain ⟨a, u⟩ := c
    unfold cellPut
    split
    · rw [cellFind_cons, if_neg (Ne.symm h)]
    · split
      · rename_i h1 h2
        subst h2
        simp [cellFind_cons, Ne.symm h]
      · rw [cellFind_cons, cellFind_cons, ih]

theorem cellFind_append (k : Nat) (m n : Cells α) :
    cellFind k (m ++ n) = (cellFind k m).or (cellFind k n) := by
  induction m with
  | nil => simp
  | cons c m ih =>
    obtain ⟨a, u⟩ := c
    rw [List.cons_append, cellFind_cons, cellFind_cons, ih]
    split <;> simp

theorem cellFind_number (k n : Nat) (vs : List α) :
    cellFind k (cellNumber n vs) = if n ≤ k then vs[k - n]? else none := by
  induction vs generalizing n with
  | nil => simp [cellNumber]
  | cons v vs ih =>
    rw [cellNumber, cellFind_cons, ih]
    by_cases h : n = k
    · subst h; simp
    · by_cases h2 : n ≤ k
      · have h3 : k - n = (k - (n + 1)) + 1 := by omega
        simp only [h, h2, if_false, if_true, show n + 1 ≤ k by omega, h3, List.getElem?_cons_succ]
      · simp [h, h2, show ¬ n + 1 ≤ k by omega]

theorem cellFind_filter (k n : Nat) (m : Cells α) :
    cellFind k (m.filter (fun c => decide (n ≤ c.1))) = if n ≤ k then cellFind k m else none := by
  induction m with
  | nil => simp
  | cons c m ih =>
    obtain ⟨a, u⟩ := c
    by_cases h : n ≤ a
    · rw [List.filter_cons_of_pos (by simpa using h), cellFind_cons, cellFind_cons, ih]
      by_cases h2 : a = k
      · subst h2; simp [h]
      · simp [h2]
    · rw [List.filter_cons_of_neg (by simpa using h), ih, cellFind_cons]
      by_cases h2 : a = k
      · subst h2; simp [h]
      · simp [h2]

/-- A range write: below its length the new values, above it the old ones. -/
theorem cellFind_putFront (k : Nat) (vs : List α) (m : Cells α) :
    cellFind k (cellPutFront vs m) = if k < vs.length then vs[k]? else cellFind k m := by
  rw [cellPutFront, cellFind_append, cellFind_number, cellFind_filter]
  by_cases h : k < vs.length
  · simp [h]
  · simp [h, Nat.le_of_not_lt h]

theorem cellsSorted_mono {lo lo' bound : Nat} (h : lo' ≤ lo) (m : Cells α) (hm : cellsSorted lo bound m = true) :
    cellsSorted lo' bound m = true := by
  cases m with
  | nil => rfl
  | cons c m =>
    obtain ⟨a, u⟩ := c
    simp only [cellsSorted, Bool.and_eq_true, decide_eq_true_eq] at hm ⊢
    exact ⟨⟨by omega, hm.1.2⟩, hm.2⟩

theorem cellsSorted_put {lo bound k : Nat} (hlo : lo ≤ k) (hk : k < bound) (v : α) (m : Cells α)
    (hm : cellsSorted lo bound m = true) : cellsSorted lo bound (cellPut k v m) = true := by
  induction m generalizing lo with
  | nil => simp [cellPut, cellsSorted, hlo, hk]
  | cons c m ih =>
    obtain ⟨a, u⟩ := c
    simp only [cellsSorted, Bool.and_eq_true, decide_eq_true_eq] at hm
    unfold cellPut
    split
    · simp [cellsSorted, hlo, hk, hm.1.2, hm.2]; omega
    · split
      · rename_i h1 h2
        subst h2
        simp [cellsSorted, hlo, hk, hm.2]
      · simp only [cellsSorted, Bool.and_eq_true, decide_eq_true_eq]
        exact ⟨hm.1, ih (by omega) hm.2⟩

theorem cellsSorted_number_append {lo bound n : Nat} (hlo : lo ≤ n) (vs : List α) (hn : n + vs.length ≤ bound)
    (m : Cells α) (hm : cellsSorted (n + vs.length) bound m = true) :
    cellsSorted lo bound (cellNumber n vs ++ m) = true := by
  induction vs generalizing lo n with
  | nil => exact cellsSorted_mono (by simpa using hlo) m hm
  | cons v vs ih =>
    simp only [List.length_cons] at hn hm
    simp only [cellNumber, List.cons_append, cellsSorted, Bool.and_eq_true, decide_eq_true_eq]
    exact ⟨⟨hlo, by omega⟩, ih (Nat.le_refl _) (by omega) (by rwa [Nat.add_assoc, Nat.add_comm 1])⟩

theorem cellsSorted_filter {lo bound n : Nat} (m : Cells α) (hm : cellsSorted lo bound m = true) :
    cellsSorted (max lo n) bound (m.filter (fun c => decide (n ≤ c.1))) = true := by
  induction m generalizing lo with
  | nil => rfl
  | cons c m ih =>
    obtain ⟨a, u⟩ := c
    simp only [cellsSorted, Bool.and_eq_true, decide_eq_true_eq] at hm
    by_cases h : n ≤ a
    · rw [List.filter_cons_of_pos (by simpa using h)]
      simp only [cellsSorted, Bool.and_eq_true, decide_eq_true_eq]
      exact ⟨⟨by omega, hm.1.2⟩, cellsSorted_mono (by omega) _ (ih hm.2)⟩
    · rw [List.filter_cons_of_neg (by simpa using h)]
      exact cellsSorted_mono (by omega) _ (ih hm.2)

/-- A range write that fits keeps the canonical form. -/
theorem cellsSorted_putFront {bound : Nat} (vs : List α) (hv : vs.length ≤ bound) (m : Cells α)
    (hm : cellsSorted 0 bound m = true) : cellsSorted 0 bound (cellPutFront vs m) = true := by
  refine cellsSorted_number_append (Nat.le_refl 0) vs (by omega) _ ?_
  exact cellsSorted_mono (by omega) _ (cellsSorted_filter (n := vs.length) m hm)

theorem cellsWf_put {k : Nat} (hk : k < Config.NMAX) (v : Word) (m : Cells Word) (hm : cellsWf m = true) :
    cellsWf (cellPut k v m) = true := cellsSorted_put (Nat.zero_le k) hk v m hm

theorem cellsWf_putFront (vs : List Word) (hv : vs.length ≤ Config.NMAX) (m : Cells Word) (hm : cellsWf m = true) :
    cellsWf (cellPutFront vs m) = true := cellsSorted_putFront vs hv m hm

theorem memory_wf_put {k : Nat} (hk : k < Config.PKBMAX) (v : Byte) (m : Memory) (hm : Memory.wf m = true) :
    Memory.wf (cellPut k v m) = true := cellsSorted_put (Nat.zero_le k) hk v m hm

theorem memory_wf_putFront (vs : List Byte) (hv : vs.length ≤ Config.PKBMAX) (m : Memory) (hm : Memory.wf m = true) :
    Memory.wf (cellPutFront vs m) = true := cellsSorted_putFront vs hv m hm

end Sys2Proof.Machine
end

