-- ==== Sys2Proof/Laws/Codec.lean ====
section
/-! SUPPORT. One lemma per function of the function layer that says when it succeeds and what it answers. -/

namespace Sys2Proof.Machine

/-- Every element fits `w` bits (30_encoding.md R103). -/
theorem any_exceeds_eq_false_iff (b : List Word) (w : Nat) :
    b.any (exceeds w) = false ↔ ∀ v ∈ b, v.toNat < 2 ^ w := by
  rw [List.any_eq_false]
  exact forall₂_congr fun v _ => by rw [Bool.not_eq_true, exceeds_eq_false_iff]

/-- What `pack` answers when every element fits. -/
theorem pack_of_fits {b : List Word} {w : Nat} (h : ∀ v ∈ b, v.toNat < 2 ^ w) :
    pack b w = .ok ((List.range (packedLength b.length w)).map (packedByte b w)) := by
  rw [pack, (any_exceeds_eq_false_iff b w).mpr h]
  rfl

/-- What `pack` answers when some element does not fit. -/
theorem pack_of_exceeds {b : List Word} {w : Nat} (h : ∃ v ∈ b, 2 ^ w ≤ v.toNat) :
    pack b w = .error .widthOverflow := by
  obtain ⟨v, hv, hw⟩ := h
  rw [pack, if_pos (List.any_eq_true.mpr ⟨v, hv, (exceeds_iff w v).mpr hw⟩)]

/-- What an `Ok` of `pack` says. -/
theorem pack_ok_cases {b : List Word} {w : Nat} {q : List Byte} (h : pack b w = .ok q) :
    (∀ v ∈ b, v.toNat < 2 ^ w) ∧ q = (List.range (packedLength b.length w)).map (packedByte b w) := by
  unfold pack at h
  split at h
  · cases h
  · rename_i hb
    exact ⟨(any_exceeds_eq_false_iff b w).mp (by simpa using hb), (Except.ok.inj h).symm⟩

/-- The only error of `pack`. -/
theorem pack_error_cases {b : List Word} {w : Nat} {k : ErrorKind} (h : pack b w = .error k) :
    k = .widthOverflow ∧ ∃ v ∈ b, 2 ^ w ≤ v.toNat := by
  unfold pack at h
  split at h
  · rename_i hb
    obtain ⟨v, hv, hw⟩ := List.any_eq_true.mp hb
    exact ⟨(Except.error.inj h).symm, v, hv, (exceeds_iff w v).mp hw⟩
  · cases h

/-- What `unpack` answers on a buffer that is long enough. -/
theorem unpack_of_le {p : List Byte} {w c : Nat} (h : packedLength c w ≤ p.length) :
    unpack p w c = .ok ((List.range c).map (fieldAt p w)) := by
  rw [unpack, if_neg (Nat.not_lt.mpr h)]

/-- What `unpack` answers on a buffer that is too short. -/
theorem unpack_of_lt {p : List Byte} {w c : Nat} (h : p.length < packedLength c w) :
    unpack p w c = .error .truncatedBuffer := by
  rw [unpack, if_pos h]

/-- What an `Ok` of `unpack` says. -/
theorem unpack_ok_cases {p : List Byte} {w c : Nat} {b : List Word} (h : unpack p w c = .ok b) :
    packedLength c w ≤ p.length ∧ b = (List.range c).map (fieldAt p w) := by
  unfold unpack at h
  split at h
  · cases h
  · rename_i hp
    exact ⟨Nat.le_of_not_lt hp, (Except.ok.inj h).symm⟩

/-- The only error of `unpack`. -/
theorem unpack_error_cases {p : List Byte} {w c : Nat} {k : ErrorKind} (h : unpack p w c = .error k) :
    k = .truncatedBuffer ∧ p.length < packedLength c w := by
  unfold unpack at h
  split at h
  · exact ⟨(Except.error.inj h).symm, ‹_›⟩
  · cases h

/-- `excess` never increases with the width (44_pfor_codec.md R203). -/
theorem excess_antitone (b : List Word) {w w' : Nat} (h : w ≤ w') : excess b w' ≤ excess b w := by
  unfold excess
  refine List.countP_mono_left fun v _ hv => ?_
  rw [exceeds_iff] at hv ⊢
  exact Nat.le_trans (Nat.pow_le_pow_right (by omega) h) hv

/-- At width 32 there is no exception (44_pfor_codec.md R203). -/
theorem excess_32 (b : List Word) : excess b 32 = 0 := by
  unfold excess
  rw [List.countP_eq_zero]
  intro v _
  simp [exceeds_32]

theorem excess_le_length (b : List Word) (w : Nat) : excess b w ≤ b.length := List.countP_le_length

/-- What a chosen width is: the least one in `0..32` that meets the budget (44_pfor_codec.md R203). -/
theorem chooseWidth_eq_some_iff (b : List Word) (budget : Int) (w : Nat) :
    chooseWidth b budget = some w ↔
      w ≤ 32 ∧ (excess b w : Int) ≤ budget ∧ ∀ w' < w, budget < (excess b w' : Int) := by
  rw [chooseWidth, List.find?_range_eq_some]
  simp only [decide_eq_true_eq, List.mem_range, Bool.not_eq_eq_eq_not, Bool.not_true, decide_eq_false_iff_not,
    not_le, Config.WMAX]
  constructor
  · rintro ⟨h1, h2, h3⟩; exact ⟨by omega, h1, h3⟩
  · rintro ⟨h1, h2, h3⟩; exact ⟨h2, by omega, h3⟩

/-- No width is chosen exactly when the budget is negative (44_pfor_codec.md R202). -/
theorem chooseWidth_eq_none_iff (b : List Word) (budget : Int) : chooseWidth b budget = none ↔ budget < 0 := by
  rw [chooseWidth, List.find?_eq_none]
  constructor
  · intro h
    have h32 := h 32 (by simp [Config.WMAX])
    rw [excess_32] at h32
    simpa using h32
  · intro h w _
    simp only [decide_eq_true_eq, not_le]
    omega

/-- The base block always fits (44_pfor_codec.md R206). -/
theorem baseBlock_fits (b : List Word) (w : Nat) : ∀ v ∈ baseBlock b w, v.toNat < 2 ^ w := by
  intro v hv
  obtain ⟨u, -, rfl⟩ := List.mem_map.mp hv
  split
  · exact Nat.two_pow_pos w
  · rename_i h
    exact (exceeds_eq_false_iff w u).mp (by simpa using h)

@[simp] theorem baseBlock_length (b : List Word) (w : Nat) : (baseBlock b w).length = b.length := by
  simp [baseBlock]

/-- The exception list has one entry per outlier (44_pfor_codec.md R205). -/
theorem outliersFrom_length (w n : Nat) (b : List Word) : (outliersFrom w n b).length = excess b w := by
  induction b generalizing n with
  | nil => rfl
  | cons v b ih =>
    unfold outliersFrom excess
    by_cases h : exceeds w v = true
    · rw [if_pos h, List.countP_cons_of_pos h, List.length_cons, ih]; rfl
    · rw [if_neg h, List.countP_cons_of_neg h, ih]; rfl

/-- What `encode` answers: it fails on a negative budget and on nothing else (44_pfor_codec.md R202, R207). -/
theorem encodeBlock_cases (b : List Word) (budget : Int) :
    (budget < 0 ∧ encodeBlock b budget = .error .budgetUnreachable) ∨
    ∃ w, chooseWidth b budget = some w ∧ 0 ≤ budget ∧
      encodeBlock b budget = .ok
        { baseWidth := w
          packed := (List.range (packedLength b.length w)).map (packedByte (baseBlock b w) w)
          exceptions := outliersFrom w 0 b } := by
  unfold encodeBlock
  cases h : chooseWidth b budget with
  | none => exact .inl ⟨(chooseWidth_eq_none_iff b budget).mp h, rfl⟩
  | some w =>
    refine .inr ⟨w, rfl, ?_, ?_⟩
    · by_contra hb
      rw [(chooseWidth_eq_none_iff b budget).mpr (by omega)] at h
      cases h
    · dsimp only
      rw [pack_of_fits (baseBlock_fits b w), baseBlock_length]
      rfl

/-- When the overlay succeeds: every position is below the count (44_pfor_codec.md R222). -/
theorem overlay_ok_iff (count : Nat) (base : List Word) (x : List (Word × Word)) :
    (∃ r, overlay count base x = .ok r) ↔ ∀ e ∈ x, e.1.toNat < count := by
  induction x generalizing base with
  | nil => simp [overlay]
  | cons e x ih =>
    obtain ⟨pos, val⟩ := e
    unfold overlay
    by_cases h : count ≤ pos.toNat
    · simp [h]
    · rw [if_neg h, ih]
      simp only [List.forall_mem_cons]
      exact ⟨fun hx => ⟨by omega, hx⟩, fun hx => hx.2⟩

/-- The only error of the overlay. -/
theorem overlay_error_cases {count : Nat} {base : List Word} {x : List (Word × Word)} {k : ErrorKind}
    (h : overlay count base x = .error k) : k = .positionOutOfRange ∧ ∃ e ∈ x, count ≤ e.1.toNat := by
  induction x generalizing base with
  | nil => cases h
  | cons e x ih =>
    obtain ⟨pos, val⟩ := e
    unfold overlay at h
    split at h
    · exact ⟨(Except.error.inj h).symm, _, List.mem_cons_self, ‹_›⟩
    · obtain ⟨hk, e, he, hc⟩ := ih h
      exact ⟨hk, e, List.mem_cons_of_mem _ he, hc⟩

/-- The overlay keeps the length of the block. -/
theorem overlay_length {count : Nat} {base r : List Word} {x : List (Word × Word)} (h : overlay count base x = .ok r) :
    r.length = base.length := by
  induction x generalizing base with
  | nil => rw [← Except.ok.inj h]
  | cons e x ih =>
    obtain ⟨pos, val⟩ := e
    unfold overlay at h
    split at h
    · cases h
    · rw [ih h, List.length_set]

/-- What an `Ok` of `decode` says (44_pfor_codec.md R221). -/
theorem decodeBlock_ok_cases {e : EncodedBlock} {c : Nat} {b : List Word} (h : decodeBlock e c = .ok b) :
    packedLength c e.baseWidth ≤ e.packed.length ∧
      overlay c ((List.range c).map (fieldAt e.packed e.baseWidth)) e.exceptions = .ok b := by
  unfold decodeBlock at h
  split at h
  · cases h
  · rename_i base hb
    obtain ⟨h1, rfl⟩ := unpack_ok_cases hb
    exact ⟨h1, h⟩

theorem decodeBlock_length {e : EncodedBlock} {c : Nat} {b : List Word} (h : decodeBlock e c = .ok b) :
    b.length = c := by
  rw [overlay_length (decodeBlock_ok_cases h).2]; simp

end Sys2Proof.Machine
end

