-- ==== Sys2Proof/Laws/State.lean ====
section
/-! SUPPORT. One lemma per field per named update of the state, each true by `rfl`. -/

namespace Sys2Proof.Machine

/-! ### `State.setWidth` -/

@[simp] theorem State.setWidth_phase (s : State) (w : Nat) : (s.setWidth w).phase = s.phase := rfl
@[simp] theorem State.setWidth_cmdl (s : State) (w : Nat) : (s.setWidth w).cmdl = s.cmdl := rfl
@[simp] theorem State.setWidth_code (s : State) (w : Nat) : (s.setWidth w).code = s.code := rfl
@[simp] theorem State.setWidth_width (s : State) (w : Nat) : (s.setWidth w).width = BitVec.ofNat 32 w := rfl
@[simp] theorem State.setWidth_count (s : State) (w : Nat) : (s.setWidth w).count = s.count := rfl
@[simp] theorem State.setWidth_budget (s : State) (w : Nat) : (s.setWidth w).budget = s.budget := rfl
@[simp] theorem State.setWidth_plen (s : State) (w : Nat) : (s.setWidth w).plen = s.plen := rfl
@[simp] theorem State.setWidth_excnt (s : State) (w : Nat) : (s.setWidth w).excnt = s.excnt := rfl
@[simp] theorem State.setWidth_blk (s : State) (w : Nat) : (s.setWidth w).blk = s.blk := rfl
@[simp] theorem State.setWidth_pkb (s : State) (w : Nat) : (s.setWidth w).pkb = s.pkb := rfl
@[simp] theorem State.setWidth_exp (s : State) (w : Nat) : (s.setWidth w).exp = s.exp := rfl
@[simp] theorem State.setWidth_exv (s : State) (w : Nat) : (s.setWidth w).exv = s.exv := rfl
@[simp] theorem State.setWidth_epoch (s : State) (w : Nat) : (s.setWidth w).epoch = s.epoch := rfl
@[simp] theorem State.setWidth_draws (s : State) (w : Nat) : (s.setWidth w).draws = s.draws := rfl
@[simp] theorem State.setWidth_agenda (s : State) (w : Nat) : (s.setWidth w).agenda = s.agenda := rfl
@[simp] theorem State.setWidth_answers (s : State) (w : Nat) : (s.setWidth w).answers = s.answers := rfl
@[simp] theorem State.setWidth_lost (s : State) (w : Nat) :
    (s.setWidth w).lost = { s.lost with width := false } := rfl

/-! ### `State.writeBlock` -/

@[simp] theorem State.writeBlock_phase (s : State) (b : List Word) : (s.writeBlock b).phase = s.phase := rfl
@[simp] theorem State.writeBlock_cmdl (s : State) (b : List Word) : (s.writeBlock b).cmdl = s.cmdl := rfl
@[simp] theorem State.writeBlock_code (s : State) (b : List Word) : (s.writeBlock b).code = s.code := rfl
@[simp] theorem State.writeBlock_width (s : State) (b : List Word) : (s.writeBlock b).width = s.width := rfl
@[simp] theorem State.writeBlock_count (s : State) (b : List Word) : (s.writeBlock b).count = s.count := rfl
@[simp] theorem State.writeBlock_budget (s : State) (b : List Word) : (s.writeBlock b).budget = s.budget := rfl
@[simp] theorem State.writeBlock_plen (s : State) (b : List Word) : (s.writeBlock b).plen = s.plen := rfl
@[simp] theorem State.writeBlock_excnt (s : State) (b : List Word) : (s.writeBlock b).excnt = s.excnt := rfl
@[simp] theorem State.writeBlock_blk (s : State) (b : List Word) : (s.writeBlock b).blk = cellPutFront b s.blk := rfl
@[simp] theorem State.writeBlock_pkb (s : State) (b : List Word) : (s.writeBlock b).pkb = s.pkb := rfl
@[simp] theorem State.writeBlock_exp (s : State) (b : List Word) : (s.writeBlock b).exp = s.exp := rfl
@[simp] theorem State.writeBlock_exv (s : State) (b : List Word) : (s.writeBlock b).exv = s.exv := rfl
@[simp] theorem State.writeBlock_epoch (s : State) (b : List Word) : (s.writeBlock b).epoch = s.epoch := rfl
@[simp] theorem State.writeBlock_draws (s : State) (b : List Word) : (s.writeBlock b).draws = s.draws := rfl
@[simp] theorem State.writeBlock_agenda (s : State) (b : List Word) : (s.writeBlock b).agenda = s.agenda := rfl
@[simp] theorem State.writeBlock_answers (s : State) (b : List Word) : (s.writeBlock b).answers = s.answers := rfl
@[simp] theorem State.writeBlock_lost (s : State) (b : List Word) :
    (s.writeBlock b).lost = { s.lost with lanes := marksFrom b.length s.lost.lanes } := rfl

/-! ### `State.writePacked` -/

@[simp] theorem State.writePacked_phase (s : State) (q : List Byte) : (s.writePacked q).phase = s.phase := rfl
@[simp] theorem State.writePacked_cmdl (s : State) (q : List Byte) : (s.writePacked q).cmdl = s.cmdl := rfl
@[simp] theorem State.writePacked_code (s : State) (q : List Byte) : (s.writePacked q).code = s.code := rfl
@[simp] theorem State.writePacked_width (s : State) (q : List Byte) : (s.writePacked q).width = s.width := rfl
@[simp] theorem State.writePacked_count (s : State) (q : List Byte) : (s.writePacked q).count = s.count := rfl
@[simp] theorem State.writePacked_budget (s : State) (q : List Byte) : (s.writePacked q).budget = s.budget := rfl
@[simp] theorem State.writePacked_plen (s : State) (q : List Byte) : (s.writePacked q).plen = BitVec.ofNat 32 q.length := rfl
@[simp] theorem State.writePacked_excnt (s : State) (q : List Byte) : (s.writePacked q).excnt = s.excnt := rfl
@[simp] theorem State.writePacked_blk (s : State) (q : List Byte) : (s.writePacked q).blk = s.blk := rfl
@[simp] theorem State.writePacked_pkb (s : State) (q : List Byte) : (s.writePacked q).pkb = cellPutFront q s.pkb := rfl
@[simp] theorem State.writePacked_exp (s : State) (q : List Byte) : (s.writePacked q).exp = s.exp := rfl
@[simp] theorem State.writePacked_exv (s : State) (q : List Byte) : (s.writePacked q).exv = s.exv := rfl
@[simp] theorem State.writePacked_epoch (s : State) (q : List Byte) : (s.writePacked q).epoch = s.epoch := rfl
@[simp] theorem State.writePacked_draws (s : State) (q : List Byte) : (s.writePacked q).draws = s.draws := rfl
@[simp] theorem State.writePacked_agenda (s : State) (q : List Byte) : (s.writePacked q).agenda = s.agenda := rfl
@[simp] theorem State.writePacked_answers (s : State) (q : List Byte) : (s.writePacked q).answers = s.answers := rfl
@[simp] theorem State.writePacked_lost (s : State) (q : List Byte) :
    (s.writePacked q).lost = { s.lost with plen := false, bytes := marksFrom q.length s.lost.bytes } := rfl

/-! ### `State.writeExceptions` -/

@[simp] theorem State.writeExceptions_phase (s : State) (x : List (Word × Word)) : (s.writeExceptions x).phase = s.phase := rfl
@[simp] theorem State.writeExceptions_cmdl (s : State) (x : List (Word × Word)) : (s.writeExceptions x).cmdl = s.cmdl := rfl
@[simp] theorem State.writeExceptions_code (s : State) (x : List (Word × Word)) : (s.writeExceptions x).code = s.code := rfl
@[simp] theorem State.writeExceptions_width (s : State) (x : List (Word × Word)) : (s.writeExceptions x).width = s.width := rfl
@[simp] theorem State.writeExceptions_count (s : State) (x : List (Word × Word)) : (s.writeExceptions x).count = s.count := rfl
@[simp] theorem State.writeExceptions_budget (s : State) (x : List (Word × Word)) : (s.writeExceptions x).budget = s.budget := rfl
@[simp] theorem State.writeExceptions_plen (s : State) (x : List (Word × Word)) : (s.writeExceptions x).plen = s.plen := rfl
@[simp] theorem State.writeExceptions_excnt (s : State) (x : List (Word × Word)) : (s.writeExceptions x).excnt = BitVec.ofNat 32 x.length := rfl
@[simp] theorem State.writeExceptions_blk (s : State) (x : List (Word × Word)) : (s.writeExceptions x).blk = s.blk := rfl
@[simp] theorem State.writeExceptions_pkb (s : State) (x : List (Word × Word)) : (s.writeExceptions x).pkb = s.pkb := rfl
@[simp] theorem State.writeExceptions_exp (s : State) (x : List (Word × Word)) : (s.writeExceptions x).exp = cellPutFront (x.map Prod.fst) s.exp := rfl
@[simp] theorem State.writeExceptions_exv (s : State) (x : List (Word × Word)) : (s.writeExceptions x).exv = cellPutFront (x.map Prod.snd) s.exv := rfl
@[simp] theorem State.writeExceptions_epoch (s : State) (x : List (Word × Word)) : (s.writeExceptions x).epoch = s.epoch := rfl
@[simp] theorem State.writeExceptions_draws (s : State) (x : List (Word × Word)) : (s.writeExceptions x).draws = s.draws := rfl
@[simp] theorem State.writeExceptions_agenda (s : State) (x : List (Word × Word)) : (s.writeExceptions x).agenda = s.agenda := rfl
@[simp] theorem State.writeExceptions_answers (s : State) (x : List (Word × Word)) : (s.writeExceptions x).answers = s.answers := rfl
@[simp] theorem State.writeExceptions_lost (s : State) (x : List (Word × Word)) :
    (s.writeExceptions x).lost = { s.lost with excnt := false, positions := marksFrom x.length s.lost.positions, values := marksFrom x.length s.lost.values } := rfl

/-! ### `State.finish` -/

@[simp] theorem State.finish_phase (s : State) (c : ResultCode) : (s.finish c).phase = .idle := rfl
@[simp] theorem State.finish_cmdl (s : State) (c : ResultCode) : (s.finish c).cmdl = s.cmdl := rfl
@[simp] theorem State.finish_code (s : State) (c : ResultCode) : (s.finish c).code = c := rfl
@[simp] theorem State.finish_width (s : State) (c : ResultCode) : (s.finish c).width = s.width := rfl
@[simp] theorem State.finish_count (s : State) (c : ResultCode) : (s.finish c).count = s.count := rfl
@[simp] theorem State.finish_budget (s : State) (c : ResultCode) : (s.finish c).budget = s.budget := rfl
@[simp] theorem State.finish_plen (s : State) (c : ResultCode) : (s.finish c).plen = s.plen := rfl
@[simp] theorem State.finish_excnt (s : State) (c : ResultCode) : (s.finish c).excnt = s.excnt := rfl
@[simp] theorem State.finish_blk (s : State) (c : ResultCode) : (s.finish c).blk = s.blk := rfl
@[simp] theorem State.finish_pkb (s : State) (c : ResultCode) : (s.finish c).pkb = s.pkb := rfl
@[simp] theorem State.finish_exp (s : State) (c : ResultCode) : (s.finish c).exp = s.exp := rfl
@[simp] theorem State.finish_exv (s : State) (c : ResultCode) : (s.finish c).exv = s.exv := rfl
@[simp] theorem State.finish_epoch (s : State) (c : ResultCode) : (s.finish c).epoch = s.epoch := rfl
@[simp] theorem State.finish_draws (s : State) (c : ResultCode) : (s.finish c).draws = s.draws := rfl
@[simp] theorem State.finish_agenda (s : State) (c : ResultCode) : (s.finish c).agenda = s.agenda := rfl
@[simp] theorem State.finish_answers (s : State) (c : ResultCode) : (s.finish c).answers = s.answers := rfl
@[simp] theorem State.finish_lost (s : State) (c : ResultCode) :
    (s.finish c).lost = s.lost := rfl

/-! ### `State.spoil` -/

@[simp] theorem State.spoil_phase (s : State) (r : FailureRange) : (s.spoil r).phase = s.phase := rfl
@[simp] theorem State.spoil_cmdl (s : State) (r : FailureRange) : (s.spoil r).cmdl = s.cmdl := rfl
@[simp] theorem State.spoil_code (s : State) (r : FailureRange) : (s.spoil r).code = s.code := rfl
@[simp] theorem State.spoil_width (s : State) (r : FailureRange) : (s.spoil r).width = if r.width then Config.anyWidth s.draws else s.width := rfl
@[simp] theorem State.spoil_count (s : State) (r : FailureRange) : (s.spoil r).count = s.count := rfl
@[simp] theorem State.spoil_budget (s : State) (r : FailureRange) : (s.spoil r).budget = s.budget := rfl
@[simp] theorem State.spoil_plen (s : State) (r : FailureRange) : (s.spoil r).plen = if r.plen then Config.anyPlen s.draws else s.plen := rfl
@[simp] theorem State.spoil_excnt (s : State) (r : FailureRange) : (s.spoil r).excnt = if r.excnt then Config.anyExcnt s.draws else s.excnt := rfl
@[simp] theorem State.spoil_blk (s : State) (r : FailureRange) : (s.spoil r).blk = cellPutFront ((List.range r.lanes).map (Config.anyLane s.draws)) s.blk := rfl
@[simp] theorem State.spoil_pkb (s : State) (r : FailureRange) : (s.spoil r).pkb = cellPutFront ((List.range r.bytes).map (Config.anyByte s.draws)) s.pkb := rfl
@[simp] theorem State.spoil_exp (s : State) (r : FailureRange) : (s.spoil r).exp = cellPutFront ((List.range r.entries).map (Config.anyPos s.draws)) s.exp := rfl
@[simp] theorem State.spoil_exv (s : State) (r : FailureRange) : (s.spoil r).exv = cellPutFront ((List.range r.entries).map (Config.anyVal s.draws)) s.exv := rfl
@[simp] theorem State.spoil_epoch (s : State) (r : FailureRange) : (s.spoil r).epoch = s.epoch := rfl
@[simp] theorem State.spoil_draws (s : State) (r : FailureRange) : (s.spoil r).draws = s.draws + 1 := rfl
@[simp] theorem State.spoil_agenda (s : State) (r : FailureRange) : (s.spoil r).agenda = s.agenda := rfl
@[simp] theorem State.spoil_answers (s : State) (r : FailureRange) : (s.spoil r).answers = s.answers := rfl
@[simp] theorem State.spoil_lost (s : State) (r : FailureRange) :
    (s.spoil r).lost = s.lost.add r := rfl

/-! ### `State.issue` -/

@[simp] theorem State.issue_phase (s : State) (c : Word) : (s.issue c).phase = .busy := rfl
@[simp] theorem State.issue_cmdl (s : State) (c : Word) : (s.issue c).cmdl = c := rfl
@[simp] theorem State.issue_code (s : State) (c : Word) : (s.issue c).code = .ok := rfl
@[simp] theorem State.issue_width (s : State) (c : Word) : (s.issue c).width = s.width := rfl
@[simp] theorem State.issue_count (s : State) (c : Word) : (s.issue c).count = s.count := rfl
@[simp] theorem State.issue_budget (s : State) (c : Word) : (s.issue c).budget = s.budget := rfl
@[simp] theorem State.issue_plen (s : State) (c : Word) : (s.issue c).plen = s.plen := rfl
@[simp] theorem State.issue_excnt (s : State) (c : Word) : (s.issue c).excnt = s.excnt := rfl
@[simp] theorem State.issue_blk (s : State) (c : Word) : (s.issue c).blk = s.blk := rfl
@[simp] theorem State.issue_pkb (s : State) (c : Word) : (s.issue c).pkb = s.pkb := rfl
@[simp] theorem State.issue_exp (s : State) (c : Word) : (s.issue c).exp = s.exp := rfl
@[simp] theorem State.issue_exv (s : State) (c : Word) : (s.issue c).exv = s.exv := rfl
@[simp] theorem State.issue_epoch (s : State) (c : Word) : (s.issue c).epoch = s.epoch := rfl
@[simp] theorem State.issue_draws (s : State) (c : Word) : (s.issue c).draws = s.draws := rfl
@[simp] theorem State.issue_agenda (s : State) (c : Word) : (s.issue c).agenda = s.agenda := rfl
@[simp] theorem State.issue_answers (s : State) (c : Word) : (s.issue c).answers = s.answers := rfl
@[simp] theorem State.issue_lost (s : State) (c : Word) :
    (s.issue c).lost = s.lost := rfl

/-! ### `State.platformReset` -/

@[simp] theorem State.platformReset_phase (s : State) : (s.platformReset).phase = .idle := rfl
@[simp] theorem State.platformReset_cmdl (s : State) : (s.platformReset).cmdl = Config.anyLatch s.draws := rfl
@[simp] theorem State.platformReset_code (s : State) : (s.platformReset).code = .ok := rfl
@[simp] theorem State.platformReset_width (s : State) : (s.platformReset).width = 0 := rfl
@[simp] theorem State.platformReset_count (s : State) : (s.platformReset).count = 0 := rfl
@[simp] theorem State.platformReset_budget (s : State) : (s.platformReset).budget = 0 := rfl
@[simp] theorem State.platformReset_plen (s : State) : (s.platformReset).plen = 0 := rfl
@[simp] theorem State.platformReset_excnt (s : State) : (s.platformReset).excnt = 0 := rfl
@[simp] theorem State.platformReset_blk (s : State) : (s.platformReset).blk = [] := rfl
@[simp] theorem State.platformReset_pkb (s : State) : (s.platformReset).pkb = [] := rfl
@[simp] theorem State.platformReset_exp (s : State) : (s.platformReset).exp = [] := rfl
@[simp] theorem State.platformReset_exv (s : State) : (s.platformReset).exv = [] := rfl
@[simp] theorem State.platformReset_epoch (s : State) : (s.platformReset).epoch = s.draws := rfl
@[simp] theorem State.platformReset_draws (s : State) : (s.platformReset).draws = s.draws + 1 := rfl
@[simp] theorem State.platformReset_agenda (s : State) : (s.platformReset).agenda = s.agenda := rfl
@[simp] theorem State.platformReset_answers (s : State) : (s.platformReset).answers = s.answers := rfl
@[simp] theorem State.platformReset_lost (s : State) :
    (s.platformReset).lost = Lost.nothing := rfl

/-! ### `State.dropTurn` -/

@[simp] theorem State.dropTurn_phase (s : State) : (s.dropTurn).phase = s.phase := rfl
@[simp] theorem State.dropTurn_cmdl (s : State) : (s.dropTurn).cmdl = s.cmdl := rfl
@[simp] theorem State.dropTurn_code (s : State) : (s.dropTurn).code = s.code := rfl
@[simp] theorem State.dropTurn_width (s : State) : (s.dropTurn).width = s.width := rfl
@[simp] theorem State.dropTurn_count (s : State) : (s.dropTurn).count = s.count := rfl
@[simp] theorem State.dropTurn_budget (s : State) : (s.dropTurn).budget = s.budget := rfl
@[simp] theorem State.dropTurn_plen (s : State) : (s.dropTurn).plen = s.plen := rfl
@[simp] theorem State.dropTurn_excnt (s : State) : (s.dropTurn).excnt = s.excnt := rfl
@[simp] theorem State.dropTurn_blk (s : State) : (s.dropTurn).blk = s.blk := rfl
@[simp] theorem State.dropTurn_pkb (s : State) : (s.dropTurn).pkb = s.pkb := rfl
@[simp] theorem State.dropTurn_exp (s : State) : (s.dropTurn).exp = s.exp := rfl
@[simp] theorem State.dropTurn_exv (s : State) : (s.dropTurn).exv = s.exv := rfl
@[simp] theorem State.dropTurn_epoch (s : State) : (s.dropTurn).epoch = s.epoch := rfl
@[simp] theorem State.dropTurn_draws (s : State) : (s.dropTurn).draws = s.draws := rfl
@[simp] theorem State.dropTurn_agenda (s : State) : (s.dropTurn).agenda = s.agenda.tail := rfl
@[simp] theorem State.dropTurn_answers (s : State) : (s.dropTurn).answers = s.answers := rfl
@[simp] theorem State.dropTurn_lost (s : State) :
    (s.dropTurn).lost = s.lost := rfl

/-! ### The two ways an exception ends a command -/

theorem State.raise_eq (s : State) (r : FailureRange) (k : ErrorKind) : s.raise r k = (s.spoil r).finish k.code := rfl

theorem State.raiseIllegal_eq (s : State) : s.raiseIllegal = s.finish .illegalCommand := rfl

end Sys2Proof.Machine
end

