-- ==== Sys2Proof/Laws/Lost.lean ====
section
/-! SUPPORT. The marks of what failed commands left unspecified (log 21): membership after each operation, and their canonical
form. -/

namespace Sys2Proof.Machine

/-! ### Lists of marks -/

@[simp] theorem mem_marksFrom {n k : Nat} {l : List Nat} : k ∈ marksFrom n l ↔ k ∈ l ∧ n ≤ k := by simp [marksFrom]

@[simp] theorem mem_markFront {n k : Nat} {l : List Nat} : k ∈ markFront n l ↔ k < n ∨ k ∈ l := by
  simp only [markFront, List.mem_append, List.mem_range, mem_marksFrom]
  by_cases h : k < n
  · simp [h]
  · simp [h, Nat.le_of_not_lt h]

@[simp] theorem mem_unmark {n k : Nat} {l : List Nat} : k ∈ unmark n l ↔ k ∈ l ∧ k ≠ n := by simp [unmark]

theorem marksWf_iff {bound : Nat} {l : List Nat} :
    marksWf bound l = true ↔ l.Pairwise (· < ·) ∧ ∀ k ∈ l, k < bound := by simp [marksWf]

theorem marksWf_nil (bound : Nat) : marksWf bound [] = true := by simp [marksWf]

theorem marksWf_marksFrom {bound n : Nat} {l : List Nat} (h : marksWf bound l = true) :
    marksWf bound (marksFrom n l) = true := by
  obtain ⟨hs, hb⟩ := marksWf_iff.mp h
  exact marksWf_iff.mpr ⟨hs.filter _, fun k hk => hb k (mem_marksFrom.mp hk).1⟩

theorem marksWf_unmark {bound n : Nat} {l : List Nat} (h : marksWf bound l = true) :
    marksWf bound (unmark n l) = true := by
  obtain ⟨hs, hb⟩ := marksWf_iff.mp h
  exact marksWf_iff.mpr ⟨hs.filter _, fun k hk => hb k (mem_unmark.mp hk).1⟩

theorem marksWf_markFront {bound n : Nat} {l : List Nat} (hn : n ≤ bound) (h : marksWf bound l = true) :
    marksWf bound (markFront n l) = true := by
  obtain ⟨hs, hb⟩ := marksWf_iff.mp h
  refine marksWf_iff.mpr ⟨List.pairwise_append.mpr ⟨List.pairwise_lt_range, hs.filter _, ?_⟩, ?_⟩
  · intro a ha b hb
    have h1 := List.mem_range.mp ha
    have h2 := (mem_marksFrom.mp hb).2
    omega
  · intro k hk
    rcases mem_markFront.mp hk with h1 | h1
    · omega
    · exact hb k h1

/-! ### All marks of a state -/

theorem Lost.wf_iff {m : Lost} :
    m.wf = true ↔ marksWf Config.NMAX m.lanes = true ∧ marksWf Config.PKBMAX m.bytes = true ∧
      marksWf Config.EXMAX m.positions = true ∧ marksWf Config.EXMAX m.values = true := by
  simp only [Lost.wf, Bool.and_eq_true, and_assoc]

theorem Lost.wf_nothing : Lost.nothing.wf = true := by
  simp [Lost.wf, Lost.nothing, marksWf_nil]

/-- A failure range within the buffers keeps the canonical form. -/
theorem Lost.wf_add {m : Lost} {r : FailureRange} (hl : r.lanes ≤ Config.NMAX) (hb : r.bytes ≤ Config.PKBMAX)
    (he : r.entries ≤ Config.EXMAX) (h : m.wf = true) : (m.add r).wf = true := by
  obtain ⟨h1, h2, h3, h4⟩ := Lost.wf_iff.mp h
  exact Lost.wf_iff.mpr
    ⟨marksWf_markFront hl h1, marksWf_markFront hb h2, marksWf_markFront he h3, marksWf_markFront he h4⟩

theorem Lost.wf_clear {m : Lost} (l : Loc) (h : m.wf = true) : (m.clear l).wf = true := by
  obtain ⟨h1, h2, h3, h4⟩ := Lost.wf_iff.mp h
  cases l with
  | reg r => cases r <;> exact h
  | blk i => exact Lost.wf_iff.mpr ⟨marksWf_unmark h1, h2, h3, h4⟩
  | pkb j => exact Lost.wf_iff.mpr ⟨h1, marksWf_unmark h2, h3, h4⟩
  | exp k => exact Lost.wf_iff.mpr ⟨h1, h2, marksWf_unmark h3, h4⟩
  | exv k => exact Lost.wf_iff.mpr ⟨h1, h2, h3, marksWf_unmark h4⟩

/-- A range write of each result keeps the canonical form. -/
theorem State.lost_wf_setWidth {s : State} (w : Nat) (h : s.lost.wf = true) : (s.setWidth w).lost.wf = true := h

theorem State.lost_wf_writeBlock {s : State} (b : List Word) (h : s.lost.wf = true) :
    (s.writeBlock b).lost.wf = true := by
  obtain ⟨h1, h2, h3, h4⟩ := Lost.wf_iff.mp h
  exact Lost.wf_iff.mpr ⟨marksWf_marksFrom h1, h2, h3, h4⟩

theorem State.lost_wf_writePacked {s : State} (q : List Byte) (h : s.lost.wf = true) :
    (s.writePacked q).lost.wf = true := by
  obtain ⟨h1, h2, h3, h4⟩ := Lost.wf_iff.mp h
  exact Lost.wf_iff.mpr ⟨h1, marksWf_marksFrom h2, h3, h4⟩

theorem State.lost_wf_writeExceptions {s : State} (x : List (Word × Word)) (h : s.lost.wf = true) :
    (s.writeExceptions x).lost.wf = true := by
  obtain ⟨h1, h2, h3, h4⟩ := Lost.wf_iff.mp h
  exact Lost.wf_iff.mpr ⟨h1, h2, marksWf_marksFrom h3, marksWf_marksFrom h4⟩

/-- A host write keeps the canonical form. -/
theorem State.lost_wf_store {s : State} (w : Store) (h : s.lost.wf = true) : (s.store w).lost.wf = true := by
  cases w with
  | reg r v => cases r <;> exact h
  | blk i v => exact Lost.wf_clear (.blk i) h
  | pkb j v => exact Lost.wf_clear (.pkb j) h
  | exp k v => exact Lost.wf_clear (.exp k) h
  | exv k v => exact Lost.wf_clear (.exv k) h

/-! ### Which locations are unspecified after an operation -/

@[simp] theorem Lost.has_nothing (l : Loc) : Lost.nothing.has l = false := by
  cases l with
  | reg r => cases r <;> rfl
  | blk i => simp [Lost.has, Lost.nothing]
  | pkb j => simp [Lost.has, Lost.nothing]
  | exp k => simp [Lost.has, Lost.nothing]
  | exv k => simp [Lost.has, Lost.nothing]

/-- A host write gives its own location a value and touches no other. -/
theorem Lost.has_clear (m : Lost) (l k : Loc) : (m.clear k).has l = (m.has l && decide (l ≠ k)) := by
  rw [Bool.eq_iff_iff]
  cases k with
  | reg r => cases l with
    | reg q => cases r <;> cases q <;> simp [Lost.has, Lost.clear]
    | _ => cases r <;> simp [Lost.has, Lost.clear]
  | _ => cases l with
    | reg q => cases q <;> simp [Lost.has, Lost.clear]
    | _ => simp [Lost.has, Lost.clear, Fin.ext_iff]

/-- A failed command of instruction `i` leaves its failure range unspecified, and STATUS has a value. -/
theorem Lost.has_add_failureRange (m : Lost) (i : Instr) (s : State) {l : Loc} (hl : l ≠ .reg .status) :
    (m.add (failureRange i s)).has l = (m.has l || spoilsLoc i s l) := by
  rw [Bool.eq_iff_iff]
  cases l with
  | reg r =>
    cases r
    case status => exact absurd rfl hl
    all_goals simp [Lost.has, Lost.add, spoilsLoc, or_comm]
  | _ => simp [Lost.has, Lost.add, spoilsLoc, or_comm]

end Sys2Proof.Machine
end

