-- ==== Sys2Proof/Laws/Ops.lean ====
section
/-! SUPPORT. What the shared operations do to the elements of the buffers, and what a completion can answer. -/

namespace Sys2Proof.Machine

/-! ### Elements after an update -/

theorem laneAt_congr {s t : State} (h : t.blk = s.blk) (he : t.epoch = s.epoch) (i : Nat) : t.laneAt i = s.laneAt i := by
  rw [State.laneAt, State.laneAt, h, he]

theorem byteAt_congr {s t : State} (h : t.pkb = s.pkb) (he : t.epoch = s.epoch) (j : Nat) : t.byteAt j = s.byteAt j := by
  rw [State.byteAt, State.byteAt, h, he]

theorem posAt_congr {s t : State} (h : t.exp = s.exp) (he : t.epoch = s.epoch) (k : Nat) : t.posAt k = s.posAt k := by
  rw [State.posAt, State.posAt, h, he]

theorem valAt_congr {s t : State} (h : t.exv = s.exv) (he : t.epoch = s.epoch) (k : Nat) : t.valAt k = s.valAt k := by
  rw [State.valAt, State.valAt, h, he]

/-- A lane after a range write of the block. -/
theorem laneAt_putFront {s t : State} {b : List Word} (h : t.blk = cellPutFront b s.blk) (he : t.epoch = s.epoch)
    (i : Nat) : t.laneAt i = if h : i < b.length then b[i] else s.laneAt i := by
  rw [State.laneAt, h, cellFind_putFront, he]
  by_cases hi : i < b.length
  · simp [hi]
  · simp [hi, State.laneAt]

/-- A byte after a range write of the packed buffer. -/
theorem byteAt_putFront {s t : State} {q : List Byte} (h : t.pkb = cellPutFront q s.pkb) (he : t.epoch = s.epoch)
    (j : Nat) : t.byteAt j = if h : j < q.length then q[j] else s.byteAt j := by
  rw [State.byteAt, h, cellFind_putFront, he]
  by_cases hj : j < q.length
  · simp [hj]
  · simp [hj, State.byteAt]

/-- A position after a range write of the exception file. -/
theorem posAt_putFront {s t : State} {x : List Word} (h : t.exp = cellPutFront x s.exp) (he : t.epoch = s.epoch)
    (k : Nat) : t.posAt k = if h : k < x.length then x[k] else s.posAt k := by
  rw [State.posAt, h, cellFind_putFront, he]
  by_cases hk : k < x.length
  · simp [hk]
  · simp [hk, State.posAt]

/-- A value after a range write of the exception file. -/
theorem valAt_putFront {s t : State} {x : List Word} (h : t.exv = cellPutFront x s.exv) (he : t.epoch = s.epoch)
    (k : Nat) : t.valAt k = if h : k < x.length then x[k] else s.valAt k := by
  rw [State.valAt, h, cellFind_putFront, he]
  by_cases hk : k < x.length
  · simp [hk]
  · simp [hk, State.valAt]

/-! ### Elements after each named update -/

@[simp] theorem State.laneAt_setWidth (s : State) (w : Nat) (i : Nat) : (s.setWidth w).laneAt i = s.laneAt i := rfl
@[simp] theorem State.byteAt_setWidth (s : State) (w : Nat) (i : Nat) : (s.setWidth w).byteAt i = s.byteAt i := rfl
@[simp] theorem State.posAt_setWidth (s : State) (w : Nat) (i : Nat) : (s.setWidth w).posAt i = s.posAt i := rfl
@[simp] theorem State.valAt_setWidth (s : State) (w : Nat) (i : Nat) : (s.setWidth w).valAt i = s.valAt i := rfl

@[simp] theorem State.byteAt_writeBlock (s : State) (b : List Word) (i : Nat) : (s.writeBlock b).byteAt i = s.byteAt i := rfl
@[simp] theorem State.posAt_writeBlock (s : State) (b : List Word) (i : Nat) : (s.writeBlock b).posAt i = s.posAt i := rfl
@[simp] theorem State.valAt_writeBlock (s : State) (b : List Word) (i : Nat) : (s.writeBlock b).valAt i = s.valAt i := rfl

@[simp] theorem State.laneAt_writePacked (s : State) (q : List Byte) (i : Nat) : (s.writePacked q).laneAt i = s.laneAt i := rfl
@[simp] theorem State.posAt_writePacked (s : State) (q : List Byte) (i : Nat) : (s.writePacked q).posAt i = s.posAt i := rfl
@[simp] theorem State.valAt_writePacked (s : State) (q : List Byte) (i : Nat) : (s.writePacked q).valAt i = s.valAt i := rfl

@[simp] theorem State.laneAt_writeExceptions (s : State) (x : List (Word × Word)) (i : Nat) : (s.writeExceptions x).laneAt i = s.laneAt i := rfl
@[simp] theorem State.byteAt_writeExceptions (s : State) (x : List (Word × Word)) (i : Nat) : (s.writeExceptions x).byteAt i = s.byteAt i := rfl

@[simp] theorem State.laneAt_finish (s : State) (c : ResultCode) (i : Nat) : (s.finish c).laneAt i = s.laneAt i := rfl
@[simp] theorem State.byteAt_finish (s : State) (c : ResultCode) (i : Nat) : (s.finish c).byteAt i = s.byteAt i := rfl
@[simp] theorem State.posAt_finish (s : State) (c : ResultCode) (i : Nat) : (s.finish c).posAt i = s.posAt i := rfl
@[simp] theorem State.valAt_finish (s : State) (c : ResultCode) (i : Nat) : (s.finish c).valAt i = s.valAt i := rfl


@[simp] theorem State.laneAt_issue (s : State) (c : Word) (i : Nat) : (s.issue c).laneAt i = s.laneAt i := rfl
@[simp] theorem State.byteAt_issue (s : State) (c : Word) (i : Nat) : (s.issue c).byteAt i = s.byteAt i := rfl
@[simp] theorem State.posAt_issue (s : State) (c : Word) (i : Nat) : (s.issue c).posAt i = s.posAt i := rfl
@[simp] theorem State.valAt_issue (s : State) (c : Word) (i : Nat) : (s.issue c).valAt i = s.valAt i := rfl

@[simp] theorem State.laneAt_dropTurn (s : State) (i : Nat) : s.dropTurn.laneAt i = s.laneAt i := rfl
@[simp] theorem State.byteAt_dropTurn (s : State) (i : Nat) : s.dropTurn.byteAt i = s.byteAt i := rfl
@[simp] theorem State.posAt_dropTurn (s : State) (i : Nat) : s.dropTurn.posAt i = s.posAt i := rfl
@[simp] theorem State.valAt_dropTurn (s : State) (i : Nat) : s.dropTurn.valAt i = s.valAt i := rfl

theorem State.laneAt_writeBlock (s : State) (b : List Word) (i : Nat) :
    (s.writeBlock b).laneAt i = if h : i < b.length then b[i] else s.laneAt i :=
  laneAt_putFront (s := s) (t := s.writeBlock b) (b := b) rfl rfl i

theorem State.byteAt_writePacked (s : State) (q : List Byte) (j : Nat) :
    (s.writePacked q).byteAt j = if h : j < q.length then q[j] else s.byteAt j :=
  byteAt_putFront (s := s) (t := s.writePacked q) (q := q) rfl rfl j

theorem State.posAt_writeExceptions (s : State) (x : List (Word × Word)) (k : Nat) :
    (s.writeExceptions x).posAt k = if h : k < x.length then (x[k]).1 else s.posAt k := by
  rw [posAt_putFront (s := s) (t := s.writeExceptions x) (x := x.map Prod.fst) rfl rfl k]
  simp

theorem State.valAt_writeExceptions (s : State) (x : List (Word × Word)) (k : Nat) :
    (s.writeExceptions x).valAt k = if h : k < x.length then (x[k]).2 else s.valAt k := by
  rw [valAt_putFront (s := s) (t := s.writeExceptions x) (x := x.map Prod.snd) rfl rfl k]
  simp

/-- A failure leaves the lanes at and above its range alone. -/
theorem State.laneAt_spoil (s : State) (r : FailureRange) {i : Nat} (h : r.lanes ≤ i) :
    (s.spoil r).laneAt i = s.laneAt i := by
  rw [laneAt_putFront (s := s) (t := s.spoil r) (b := (List.range r.lanes).map (Config.anyLane s.draws)) rfl rfl i,
    dif_neg (by simpa using h)]

/-- A failure leaves the bytes at and above its range alone. -/
theorem State.byteAt_spoil (s : State) (r : FailureRange) {j : Nat} (h : r.bytes ≤ j) :
    (s.spoil r).byteAt j = s.byteAt j := by
  rw [byteAt_putFront (s := s) (t := s.spoil r) (q := (List.range r.bytes).map (Config.anyByte s.draws)) rfl rfl j,
    dif_neg (by simpa using h)]

/-- A failure leaves the positions at and above its range alone. -/
theorem State.posAt_spoil (s : State) (r : FailureRange) {k : Nat} (h : r.entries ≤ k) :
    (s.spoil r).posAt k = s.posAt k := by
  rw [posAt_putFront (s := s) (t := s.spoil r) (x := (List.range r.entries).map (Config.anyPos s.draws)) rfl rfl k,
    dif_neg (by simpa using h)]

/-- A failure leaves the values at and above its range alone. -/
theorem State.valAt_spoil (s : State) (r : FailureRange) {k : Nat} (h : r.entries ≤ k) :
    (s.spoil r).valAt k = s.valAt k := by
  rw [valAt_putFront (s := s) (t := s.spoil r) (x := (List.range r.entries).map (Config.anyVal s.draws)) rfl rfl k,
    dif_neg (by simpa using h)]

/-! ### The operands -/

@[simp] theorem State.block_length (s : State) : s.block.length = s.count.toNat := by simp [State.block]

@[simp] theorem State.packed_length (s : State) : s.packed.length = s.plen.toNat := by simp [State.packed]

@[simp] theorem State.exceptions_length (s : State) : s.exceptions.length = s.excnt.toNat := by
  simp [State.exceptions]

theorem mem_block_iff (s : State) (v : Word) : v ∈ s.block ↔ ∃ i < s.count.toNat, s.laneAt i = v := by
  simp [State.block]

theorem mem_exceptions_iff (s : State) (e : Word × Word) :
    e ∈ s.exceptions ↔ ∃ k < s.excnt.toNat, (s.posAt k, s.valAt k) = e := by
  simp [State.exceptions]

theorem block_getD {s : State} {i : Nat} (h : i < s.count.toNat) : s.block.getD i 0 = s.laneAt i := by
  simp [State.block, List.getD_eq_getElem?_getD, h]

/-- Stream bit `p` of the packed operand, where its byte lies below PLEN. -/
theorem byteBit_packedOperand {s : State} {p : Nat} (h : p < 8 * s.plen.toNat) :
    byteBit s.packed p = (s.byteAt (p / 8)).getLsbD (p % 8) := by
  have h1 : p / 8 < s.plen.toNat := by omega
  simp [byteBit, State.packed, List.getD_eq_getElem?_getD, h1]

/-! ### An EncodedBlock written to the core -/

@[simp] theorem State.laneAt_writeEncoded (s : State) (e : EncodedBlock) (i : Nat) :
    (s.writeEncoded e).laneAt i = s.laneAt i := rfl

theorem State.byteAt_writeEncoded (s : State) (e : EncodedBlock) (j : Nat) :
    (s.writeEncoded e).byteAt j = if h : j < e.packed.length then e.packed[j] else s.byteAt j :=
  State.byteAt_writePacked (s.setWidth e.baseWidth) e.packed j

theorem State.posAt_writeEncoded (s : State) (e : EncodedBlock) (k : Nat) :
    (s.writeEncoded e).posAt k = if h : k < e.exceptions.length then (e.exceptions[k]).1 else s.posAt k :=
  State.posAt_writeExceptions ((s.setWidth e.baseWidth).writePacked e.packed) e.exceptions k

theorem State.valAt_writeEncoded (s : State) (e : EncodedBlock) (k : Nat) :
    (s.writeEncoded e).valAt k = if h : k < e.exceptions.length then (e.exceptions[k]).2 else s.valAt k :=
  State.valAt_writeExceptions ((s.setWidth e.baseWidth).writePacked e.packed) e.exceptions k

/-! ### What a completion can answer -/

/-- `conclude` has three outcomes, all of them next states: illegal operands, success, an error raised
(40_command_execution.md R123). -/
theorem conclude_cases (i : Instr) (run : State → Except ErrorKind State) (s : State) :
    (operandsLegal i s = false ∧ conclude i run s = .next (s.finish .illegalCommand)) ∨
    (operandsLegal i s = true ∧ ∃ t, run s = .ok t ∧ conclude i run s = .next (t.finish .ok)) ∨
    (operandsLegal i s = true ∧ ∃ k, run s = .error k ∧
      conclude i run s = .next ((s.spoil (failureRange i s)).finish k.code)) := by
  unfold conclude
  cases h : operandsLegal i s with
  | false => exact .inl ⟨rfl, rfl⟩
  | true =>
    cases hr : run s with
    | ok t => exact .inr (.inl ⟨rfl, t, rfl, by simp⟩)
    | error k => exact .inr (.inr ⟨rfl, k, rfl, by simp [State.raise_eq]⟩)

/-- `run(op)` of each command (40_command_execution.md R123), named once for lemmas about all of them. -/
def runOf : Instr → State → Except ErrorKind State
  | .selw => runSelw
  | .pack => runPack
  | .unpk => runUnpk
  | .penc => runPenc
  | .pdec => runPdec

/-- Every command is the shared completion of its own `run`. -/
theorem exec_eq_conclude (i : Instr) (s : State) : exec i s = conclude i (runOf i) s := by
  cases i <;> rfl

/-- What any command's completion can answer. -/
theorem exec_cases (i : Instr) (s : State) :
    (operandsLegal i s = false ∧ exec i s = .next (s.finish .illegalCommand)) ∨
    (operandsLegal i s = true ∧ ∃ t, runOf i s = .ok t ∧ exec i s = .next (t.finish .ok)) ∨
    (operandsLegal i s = true ∧ ∃ k, runOf i s = .error k ∧
      exec i s = .next ((s.spoil (failureRange i s)).finish k.code)) := by
  rw [exec_eq_conclude]
  exact conclude_cases i (runOf i) s

/-! ### What each `run` answers when it succeeds -/

theorem runSelw_ok {s t : State} (h : runSelw s = .ok t) : t = s.setWidth (selectWidth s.block) :=
  (Except.ok.inj h).symm

theorem runPack_ok {s t : State} (h : runPack s = .ok t) :
    ∃ q, pack s.block s.bitWidth = .ok q ∧ t = s.writePacked q := by
  unfold runPack at h
  cases hp : pack s.block s.bitWidth with
  | error k => rw [hp] at h; cases h
  | ok q => rw [hp] at h; exact ⟨q, rfl, (Except.ok.inj h).symm⟩

theorem runUnpk_ok {s t : State} (h : runUnpk s = .ok t) :
    ∃ b, unpack s.packed s.bitWidth s.count.toNat = .ok b ∧ t = s.writeBlock b := by
  unfold runUnpk at h
  cases hp : unpack s.packed s.bitWidth s.count.toNat with
  | error k => rw [hp] at h; cases h
  | ok q => rw [hp] at h; exact ⟨q, rfl, (Except.ok.inj h).symm⟩

theorem runPenc_ok {s t : State} (h : runPenc s = .ok t) :
    ∃ e, encodeBlock s.block s.exceptionBudget = .ok e ∧ t = s.writeEncoded e := by
  unfold runPenc at h
  cases hp : encodeBlock s.block s.exceptionBudget with
  | error k => rw [hp] at h; cases h
  | ok q => rw [hp] at h; exact ⟨q, rfl, (Except.ok.inj h).symm⟩

theorem runPdec_ok {s t : State} (h : runPdec s = .ok t) :
    ∃ b, decodeBlock s.encoded s.count.toNat = .ok b ∧ t = s.writeBlock b := by
  unfold runPdec at h
  cases hp : decodeBlock s.encoded s.count.toNat with
  | error k => rw [hp] at h; cases h
  | ok q => rw [hp] at h; exact ⟨q, rfl, (Except.ok.inj h).symm⟩

/-- The error a `run` answers is the error of its function. -/
theorem runOf_error {i : Instr} {s : State} {k : ErrorKind} (h : runOf i s = .error k) :
    match i with
    | .selw => False
    | .pack => pack s.block s.bitWidth = .error k
    | .unpk => unpack s.packed s.bitWidth s.count.toNat = .error k
    | .penc => encodeBlock s.block s.exceptionBudget = .error k
    | .pdec => decodeBlock s.encoded s.count.toNat = .error k := by
  cases i with
  | selw => cases h
  | pack =>
    change (pack s.block s.bitWidth).map s.writePacked = .error k at h
    cases hp : pack s.block s.bitWidth with
    | error e => rw [hp] at h; rw [Except.error.inj h]
    | ok q => rw [hp] at h; cases h
  | unpk =>
    change (unpack s.packed s.bitWidth s.count.toNat).map s.writeBlock = .error k at h
    cases hp : unpack s.packed s.bitWidth s.count.toNat with
    | error e => rw [hp] at h; rw [Except.error.inj h]
    | ok q => rw [hp] at h; cases h
  | penc =>
    change (encodeBlock s.block s.exceptionBudget).map s.writeEncoded = .error k at h
    cases hp : encodeBlock s.block s.exceptionBudget with
    | error e => rw [hp] at h; rw [Except.error.inj h]
    | ok q => rw [hp] at h; cases h
  | pdec =>
    change (decodeBlock s.encoded s.count.toNat).map s.writeBlock = .error k at h
    cases hp : decodeBlock s.encoded s.count.toNat with
    | error e => rw [hp] at h; rw [Except.error.inj h]
    | ok q => rw [hp] at h; cases h

end Sys2Proof.Machine
end

