-- ==== Sys2Proof/Laws/PerInstr.lean ====
section
/-! SUPPORT. Statements made per instruction. Family `LegalEncoding`: the command's word is legal and carries its `OP`
(30_encoding.md R92, R96). -/

namespace Sys2Proof.Laws.LegalEncoding

/-- The command is well formed, its word is a legal command word, and the word's `OP` field is the command's code. -/
def Statement (i : Instr) : Prop :=
  WellFormed.instr i = true ∧ WellFormed.word (encode i) = true ∧ fieldOp (encode i) = opcode i

theorem selw : Statement .selw := by unfold Statement; decide

theorem pack : Statement .pack := by unfold Statement; decide

theorem unpk : Statement .unpk := by unfold Statement; decide

theorem penc : Statement .penc := by unfold Statement; decide

theorem pdec : Statement .pdec := by unfold Statement; decide

end Sys2Proof.Laws.LegalEncoding
end

