-- ==== Sys2Proof/Laws/Step.lean ====
section
/-! SUPPORT. What one step can do, said once. -/

namespace Sys2Proof.Machine

theorem dropTurn_of_nil {s : State} (h : s.agenda = []) : s.dropTurn = s := by
  cases s; subst h; rfl

/-- The core has the next turn: it stands first in the agenda, or nothing is left in it (log 1). -/
theorem step_of_coreTurn {s : State} (h : s.agenda = [] ∨ ∃ rest, s.agenda = .core :: rest) :
    step s = coreTurn s.dropTurn := by
  rcases h with h | ⟨rest, h⟩
  · rw [dropTurn_of_nil h, step, advance, h]
  · rw [step, advance, h]; rfl

theorem step_of_turn {s : State} {t : Turn} {rest : List Turn} (h : s.agenda = t :: rest) :
    step s = takeTurn t s.dropTurn := by
  rw [step, advance, h]

/-- A run of one step more. -/
theorem runSteps_succ_of_next {s t : State} (h : step s = .next t) (n : Nat) : runSteps (n + 1) s = runSteps n t := by
  rw [runSteps, h]

@[simp] theorem runSteps_zero (s : State) : runSteps 0 s = .next s := rfl

/-- A completion always answers a next state. -/
theorem complete_next (s : State) : ∃ t, complete s = .next t := by
  unfold complete
  cases decode s.cmdl with
  | none => exact ⟨_, rfl⟩
  | some i =>
    rcases exec_cases i s with ⟨-, h⟩ | ⟨-, t, -, h⟩ | ⟨-, k, -, h⟩
    · exact ⟨_, h⟩
    · exact ⟨_, h⟩
    · exact ⟨_, h⟩

/-- A read that is enabled records the element and changes nothing else. -/
theorem hostRead_next {l : Loc} {s t : State} (h : hostRead l s = .next t) :
    readEnabled l s = true ∧ t = { s with answers := s.elementAt l :: s.answers } := by
  unfold hostRead at h
  split at h
  · exact ⟨‹_›, (Host.Outcome.next.inj h).symm⟩
  · cases h

/-- A write is enabled in IDLE only. -/
theorem hostWrite_next {w : Store} {s t : State} (h : hostWrite w s = .next t) :
    s.phase = .idle ∧ t = s.store w := by
  unfold hostWrite at h
  cases hp : s.phase with
  | idle => rw [hp] at h; exact ⟨rfl, (Host.Outcome.next.inj h).symm⟩
  | busy => rw [hp] at h; cases h

/-- The five kinds of step (40_command_execution.md R120), and the core's idle turn. -/
theorem step_next_cases {s t : State} (h : step s = .next t) :
    ((s.agenda = [] ∨ ∃ rest, s.agenda = .core :: rest) ∧ s.phase = .idle ∧ t = s.dropTurn) ∨
    ((s.agenda = [] ∨ ∃ rest, s.agenda = .core :: rest) ∧ s.phase = .busy ∧ complete s.dropTurn = .next t) ∨
    (∃ l rest, s.agenda = .read l :: rest ∧ readEnabled l s.dropTurn = true ∧
      t = { s.dropTurn with answers := s.dropTurn.elementAt l :: s.answers }) ∨
    (∃ w rest, s.agenda = .write w :: rest ∧ s.phase = .idle ∧ t = s.dropTurn.store w) ∨
    (∃ rest, s.agenda = .reset :: rest ∧ t = s.dropTurn.platformReset) := by
  have hcore : (s.agenda = [] ∨ ∃ rest, s.agenda = .core :: rest) → coreTurn s.dropTurn = .next t →
      ((s.agenda = [] ∨ ∃ rest, s.agenda = .core :: rest) ∧ s.phase = .idle ∧ t = s.dropTurn) ∨
      ((s.agenda = [] ∨ ∃ rest, s.agenda = .core :: rest) ∧ s.phase = .busy ∧ complete s.dropTurn = .next t) := by
    intro ha hc
    unfold coreTurn at hc
    cases hp : s.phase with
    | idle =>
      rw [State.dropTurn_phase, hp] at hc
      exact .inl ⟨ha, rfl, (Host.Outcome.next.inj hc).symm⟩
    | busy =>
      rw [State.dropTurn_phase, hp] at hc
      exact .inr ⟨ha, rfl, hc⟩
  cases ha : s.agenda with
  | nil =>
    rw [step_of_coreTurn (.inl ha)] at h
    rcases hcore (.inl ha) h with h1 | h1
    · exact .inl (ha ▸ h1)
    · exact .inr (.inl (ha ▸ h1))
  | cons u rest =>
    rw [step_of_turn ha] at h
    cases u with
    | read l =>
      obtain ⟨he, rfl⟩ := hostRead_next h
      exact .inr (.inr (.inl ⟨l, rest, rfl, he, rfl⟩))
    | write w =>
      obtain ⟨hp, rfl⟩ := hostWrite_next h
      exact .inr (.inr (.inr (.inl ⟨w, rest, rfl, hp, rfl⟩)))
    | reset => exact .inr (.inr (.inr (.inr ⟨rest, rfl, (Host.Outcome.next.inj h).symm⟩)))
    | core =>
      rcases hcore (.inr ⟨rest, ha⟩) h with h1 | h1
      · exact .inl (ha ▸ h1)
      · exact .inr (.inl (ha ▸ h1))

end Sys2Proof.Machine
end

