-- ==== Sys2Proof/Tests/Slice0.lean ====
section
/-! SUPPORT. The model's own tests. Expected results come from the spec: the words from 30_encoding.md sections 1 to 4, the
values from 95_test_vectors.md section 3. The last part names, for every statement with hypotheses, inputs that meet them. -/

namespace Sys2Proof.Tests

open Sys2Proof.Machine

/-! ### Helpers -/

/-- An idle core with a block, a width, a budget, packed bytes and an exception list in place. -/
def holding (b : List Word) (w budget : Word) (q : List Byte) (x : List (Word × Word)) : State :=
  { State.reset with
    width := w
    count := BitVec.ofNat 32 b.length
    budget := budget
    plen := BitVec.ofNat 32 q.length
    excnt := BitVec.ofNat 32 x.length
    blk := cellNumber 0 b
    pkb := cellNumber 0 q
    exp := cellNumber 0 (x.map Prod.fst)
    exv := cellNumber 0 (x.map Prod.snd) }

/-- What can be seen of the next state. -/
def seen {α : Type} (f : State → α) : Host.Outcome State Fault Refusal → Option α
  | .next t => some (f t)
  | .fault _ => none
  | .refused _ => none

/-- The step was refused. -/
def refusedBy : Host.Outcome State Fault Refusal → Option Refusal
  | .next _ => none
  | .fault _ => none
  | .refused r => some r

/-- The core after a failed PENC: its failure range is unspecified (40_command_execution.md R130). -/
def afterFailedPenc : State := (holding [3, 1] 5 0x80000000 [7, 8] [(1, 9)]).raise
  (failureRange .penc (holding [3, 1] 5 0x80000000 [7, 8] [(1, 9)])) .budgetUnreachable

/-- A BitVec-free reading of a block. -/
def nums (b : List Word) : List Nat := b.map BitVec.toNat

/-- A BitVec-free reading of bytes. -/
def bytes (q : List Byte) : List Nat := q.map BitVec.toNat

/-! ### Decoding: words written bit by bit from 30_encoding.md R91 and R96 -/

theorem test_decode_selw : decode 0b00000000000000000000000000000001#32 = some .selw := by decide
theorem test_decode_pack : decode 0b00000000000000000000000000000010#32 = some .pack := by decide
theorem test_decode_unpk : decode 0b00000000000000000000000000000011#32 = some .unpk := by decide
theorem test_decode_penc : decode 0b00000000000000000000000000000100#32 = some .penc := by decide
theorem test_decode_pdec : decode 0b00000000000000000000000000000101#32 = some .pdec := by decide

theorem test_decode_op0 : decodeCmd 0b00000000000000000000000000000000#32 = .error .reservedOp := by decide
theorem test_decode_op6 : decodeCmd 0b00000000000000000000000000000110#32 = .error .reservedOp := by decide
theorem test_decode_op7 : decodeCmd 0b00000000000000000000000000000111#32 = .error .reservedOp := by decide
theorem test_decode_bit3 : decodeCmd 0b00000000000000000000000000001001#32 = .error .reservedBitsSet := by decide
theorem test_decode_bit31 : decodeCmd 0b10000000000000000000000000000001#32 = .error .reservedBitsSet := by decide

theorem test_table_words :
    decodeTableWord 32 1 = some .selw ∧ decodeTableWord 32 5 = some .pdec ∧ decodeTableWord 32 0 = none ∧
    decodeTableWord 32 9 = none ∧ decodeTableWord 8 3 = some .unpk := by decide

/-! ### WellFormed: an ill-formed word for each check -/

theorem test_reserved_bits_refused :
    WellFormed.reservedClear 0x00000009#32 = false ∧ WellFormed.reservedClear 0x80000001#32 = false ∧
    WellFormed.word 0x00000009#32 = false ∧ WellFormed.word 0x80000001#32 = false := by decide

theorem test_reserved_op_refused :
    WellFormed.opAssigned 0x00000000#32 = false ∧ WellFormed.opAssigned 0x00000006#32 = false ∧
    WellFormed.opAssigned 0x00000007#32 = false ∧ WellFormed.word 0x00000006#32 = false := by decide

theorem test_legal_words_accepted :
    WellFormed.word 0x00000001#32 = true ∧ WellFormed.word 0x00000005#32 = true := by decide

/-! ### One completion of each command (95_test_vectors.md sections 3.1 to 3.5, command level) -/

theorem test_selw_writes_width :
    seen (fun t => (t.code, t.width.toNat)) (exec .selw (holding [5, 0, 3] 99 0 [] [])) = some (.ok, 3) := by decide

theorem test_selw_count_257 :
    seen (fun t => (t.code, t.width.toNat)) (exec .selw { holding [] 99 0 [] [] with count := 257 })
      = some (.illegalCommand, 99) := by decide

theorem test_pack_writes_bytes :
    seen (fun t => (t.code, t.plen.toNat, bytes (t.pkb.map Prod.snd)))
      (exec .pack { holding [1, 2, 3, 4] 3 0 [0, 0, 0xEE] [] with plen := 77 })
      = some (.ok, 2, [0xD1, 0x08, 0xEE]) := by decide

theorem test_pack_overflow_keeps_the_rest :
    seen (fun t => (t.code, bytes [t.byteAt 1, t.byteAt 2], nums t.block, t.width.toNat))
      (exec .pack (holding [1, 2, 3, 4] 2 0 [0x55, 0x66, 0xEE] []))
      = some (.widthOverflow, [0x66, 0xEE], [1, 2, 3, 4], 2) := by decide

theorem test_unpk_ignores_bytes_beyond_need :
    seen (fun t => (t.code, nums (t.blk.map Prod.snd)))
      (exec .unpk { holding [1, 1, 1, 777] 3 0 [0xC5, 0xFE, 0xAA, 0xBB] [] with count := 3 })
      = some (.ok, [5, 0, 3, 777]) := by decide

theorem test_unpk_truncated :
    seen (fun t => (t.code, (t.laneAt 3).toNat))
      (exec .unpk { holding [1, 1, 1, 777] 3 0 [0xC5] [] with count := 3 }) = some (.truncatedBuffer, 777) := by decide

theorem test_penc_block_a_budget_1 :
    seen (fun t => (t.code, t.width.toNat, bytes t.packed, nums (t.exceptions.map Prod.fst),
        nums (t.exceptions.map Prod.snd)))
      (exec .penc (holding [3, 1, 70000, 2, 0, 9, 1, 2] 0 1 [] []))
      = some (.ok, 4, [0x13, 0x20, 0x90, 0x21], [2], [70000]) := by decide

theorem test_penc_negative_budget :
    seen (fun t => (t.code, nums t.block)) (exec .penc (holding [3, 1] 0 0xFFFFFFFF [] []))
      = some (.budgetUnreachable, [3, 1]) := by decide

theorem test_pdec_later_entry_wins :
    seen (fun t => (t.code, nums t.block))
      (exec .pdec (holding [0, 0, 0, 0] 2 0 [0x1B] [(1, 7), (3, 8), (1, 9)])) = some (.ok, [3, 9, 1, 8]) := by decide

theorem test_pdec_position_not_truncated :
    seen (fun t => t.code) (exec .pdec (holding [0, 0, 0, 0] 2 0 [0x1B] [(0xFFFFFFFF, 1)]))
      = some .positionOutOfRange := by decide

/-! ### What counts as written (70_reset_and_hazards.md R285) -/

/-- A failed command's range is listed but not written; its inputs stay written; a host write gives a value again. -/
theorem test_failed_range_is_not_written :
    afterFailedPenc.writtenAt (.pkb 0) = false ∧ afterFailedPenc.writtenAt (.reg .width) = false ∧
    afterFailedPenc.writtenAt (.blk 1) = true ∧ operandsWritten .penc afterFailedPenc = true ∧
    operandsWritten .pack afterFailedPenc = false ∧
    operandsWritten .pack (afterFailedPenc.store (.reg .width 2)) = true := by decide

/-- The codes of 60_exceptions.md R241, as a host reads them. -/
theorem test_status_numbers :
    ((State.reset.finish .widthOverflow).statusWord, (State.reset.finish .truncatedBuffer).statusWord,
      (State.reset.finish .budgetUnreachable).statusWord, (State.reset.finish .positionOutOfRange).statusWord)
      = (1#32, 2#32, 3#32, 4#32) := by decide

/-! ### Steps of the machine -/

theorem test_reset_runs_a_placed_command :
    seen (fun t => (t.phase, t.code, t.width.toNat)) (step (State.reset.withFetchWord 32 1)) = some (.idle, .ok, 0) := by
  decide

theorem test_reset_runs_a_placed_illegal_word :
    seen (fun t => (t.phase, t.code)) (step (State.reset.withFetchWord 32 9)) = some (.idle, .illegalCommand) := by decide

theorem test_status_in_busy :
    seen (fun t => t.answers)
      (step { (holding [] 0 0 [] []).issue 2 with agenda := [.read (.reg .status)] })
      = some [.word 0x80000000#32] := by decide

theorem test_cmd_write_in_busy_refused :
    refusedBy (step { (holding [] 0 0 [] []).issue 2 with agenda := [.write (.reg .cmd 1)] })
      = some .hostAccessWhileBusy := by decide

theorem test_status_write_ignored :
    seen (fun t => t.statusWord) (step { State.reset with agenda := [.write (.reg .status 0xFFFFFFFF)] }) = some 0#32 := by
  decide

theorem test_worked_frame_parses :
    frameParse [0x00, 0x01, 0x00, 0x00, 0x00, 0x32, 0x00, 0x00, 0x00, 0x40, 0x42, 0x0F, 0x00] =
      some { baseWidth := 0, packed := [], exceptions := [(50, 1000000)] } := by decide

/-! ### Witnesses: for every statement with hypotheses, inputs that meet them together, clause by clause -/

/-- A core with a command in flight and so many turns to come. -/
def inFlight (c : Word) (a : List Turn) (s : State) : State := { s.issue c with agenda := a }

/-- The operands every command accepts, at the upper bounds of their ranges. -/
def atBounds : State := { State.reset with width := 32, count := 256, plen := 1024, excnt := 256 }

theorem witness_StepRunsTheDecodedCommand :
    ((inFlight 1 [] atBounds).phase = .busy ∧ decode (inFlight 1 [] atBounds).cmdl = some .selw ∧
      (inFlight 1 [] atBounds).agenda = []) ∧
    ((inFlight 5 [.core, .reset] atBounds).phase = .busy ∧ decode (inFlight 5 [.core, .reset] atBounds).cmdl = some .pdec ∧
      (inFlight 5 [.core, .reset] atBounds).agenda = .core :: [.reset]) ∧
    (State.reset.phase = .idle ∧ State.reset.agenda = []) ∧
    (({ State.reset with agenda := [.core] } : State).phase = .idle ∧
      ({ State.reset with agenda := [.core] } : State).agenda = .core :: []) := by decide

theorem witness_IllegalWordCompletesWithCodeFive :
    (atBounds.issue 0).cmdl.toNat % 8 = 0 ∧ (atBounds.issue 6).cmdl.toNat % 8 = 6 ∧
    (atBounds.issue 7).cmdl.toNat % 8 = 7 ∧ (atBounds.issue 9).cmdl.toNat / 8 ≠ 0 ∧
    (atBounds.issue 0xFFFFFFFD).cmdl.toNat / 8 ≠ 0 := by decide

theorem witness_IssueStepLatchesAnyWord :
    ({ State.reset with agenda := [.write (.reg .cmd 0xFFFFFFFF)] } : State).phase = .idle ∧
    ({ State.reset with agenda := [.write (.reg .cmd 0xFFFFFFFF)] } : State).agenda =
      .write (.reg .cmd 0xFFFFFFFF) :: [] := by decide

/-- A read in IDLE followed by the same read, and a read of STATUS in BUSY with no turn after it. -/
theorem witness_HostReadAnswersAndChangesNothing :
    ({ State.reset with agenda := [.read (.pkb 1023), .read (.pkb 1023)] } : State).phase = .idle ∧
    ({ State.reset with agenda := [.read (.pkb 1023), .read (.pkb 1023)] } : State).agenda =
      .read (.pkb 1023) :: .read (.pkb 1023) :: [] ∧
    (inFlight 1 [.read (.reg .status)] atBounds).phase = .busy ∧
    (inFlight 1 [.read (.reg .status)] atBounds).agenda = .read (.reg .status) :: [] := by decide

/-- A write to the last byte, and a write to STATUS. -/
theorem witness_HostWriteReplacesOneElement :
    (({ State.reset with agenda := [.write (.pkb 1023 7)] } : State).phase = .idle ∧
      ({ State.reset with agenda := [.write (.pkb 1023 7)] } : State).agenda = .write (.pkb 1023 7) :: [] ∧
      (Store.pkb 1023 7).target ≠ .reg .cmd ∧ (Store.pkb 1023 7).target ≠ .reg .status) ∧
    (Store.reg .status 7).target ≠ .reg .cmd ∧ (Store.reg .status 7).target = .reg .status := by decide

/-- Both sides of each equivalence: a refused write, a refused read, an allowed read. -/
theorem witness_OnlyHostAccessInBusyIsRefused :
    refusedBy (step (inFlight 1 [.write (.blk 255 0)] atBounds)) = some .hostAccessWhileBusy ∧
    refusedBy (step (inFlight 1 [.read (.reg .width)] atBounds)) = some .hostAccessWhileBusy ∧
    Loc.reg .width ≠ .reg .status ∧
    (inFlight 1 [.read (.reg .status)] atBounds).hazardFree = true ∧
    (inFlight 1 [.write (.blk 255 0)] atBounds).hazardFree = false := by decide

theorem witness_ResetStepClearsInEitherPhase :
    (inFlight 1 [.reset] atBounds).agenda = .reset :: [] ∧ (inFlight 1 [.reset] atBounds).phase = .busy ∧
    ({ State.reset with agenda := [.reset] } : State).agenda = .reset :: [] := by decide

/-- A busy state with data in every buffer that meets the invariant and has a next state. -/
theorem witness_EveryStepKeepsInvariant :
    ∃ t, (inFlight 4 [] (holding [3, 1] 0 0 [0x1B] [(1, 9)])).Inv ∧
      step (inFlight 4 [] (holding [3, 1] 0 0 [0x1B] [(1, 9)])) = .next t :=
  ⟨_, { blk := by decide, pkb := by decide, exp := by decide, exv := by decide, busyCode := fun _ => rfl,
        draws := by decide, lost := by decide }, rfl⟩

/-- Issue, completion, and reset in BUSY. -/
theorem witness_PhaseChangesOnlyByIssueCompletionReset :
    seen State.phase (step { State.reset with agenda := [.write (.reg .cmd 0)] }) = some .busy ∧
    (inFlight 1 [.core] atBounds).phase = .busy ∧
    seen State.phase (step (inFlight 0 [.core] atBounds)) = some .idle ∧
    seen State.phase (step (inFlight 1 [.reset] atBounds)) = some .idle := by decide

/-- No poll, and two. -/
theorem witness_EveryCommandCompletesAfterPolling :
    ((inFlight 2 [.core] atBounds).phase = .busy ∧ (inFlight 2 [.core] atBounds).code = .ok ∧
      (inFlight 2 [.core] atBounds).agenda = List.replicate 0 (.read (.reg .status)) ++ .core :: []) ∧
    (inFlight 2 [.read (.reg .status), .read (.reg .status), .core] atBounds).agenda =
      List.replicate 2 (.read (.reg .status)) ++ .core :: [] := by decide

theorem witness_CommandLineRunsAndReadsResult :
    ({ State.reset with agenda := scriptTurns (commandLines .penc 1) ++ [.reset] } : State).phase = .idle ∧
    ({ State.reset with agenda := scriptTurns (commandLines .penc 1) ++ [.reset] } : State).agenda =
      scriptTurns (commandLines .penc 1) ++ [.reset] := by decide

/-- Code 5; success with a location outside the outputs; failure with a location outside the range. -/
theorem witness_CommandChangesOnlyItsOutputs :
    seen State.code (runCommand 9 atBounds) = some .illegalCommand ∧
    (decode 2 = some .pack ∧
      seen (fun t => (t.code, writesLoc .pack (holding [1, 2, 3] 2 0 [] []) t (.pkb 1)))
        (runCommand 2 (holding [1, 2, 3] 2 0 [] [])) = some (.ok, false)) ∧
    (seen State.code (runCommand 2 (holding [4, 2, 3] 2 0 [] [])) = some .widthOverflow ∧
      spoilsLoc .pack (holding [4, 2, 3] 2 0 [] []) (.pkb 0) = true ∧
      spoilsLoc .pack (holding [4, 2, 3] 2 0 [] []) (.pkb 1) = false) := by decide

theorem witness_CompletionNeverChangesInputs :
    decode ((holding [1, 2, 3] 2 0 [0x39] []).issue 3).cmdl = some .unpk ∧
    readsLoc .unpk (holding [1, 2, 3] 2 0 [0x39] []) (.pkb 0) = true ∧
    readsLoc .unpk (holding [1, 2, 3] 2 0 [0x39] []) (.pkb 1) = false ∧
    readsLoc .unpk (holding [1, 2, 3] 2 0 [0x39] []) (.reg .plen) = true := by decide

/-- Two states that differ outside what SELW reads. -/
theorem witness_ResultDependsOnlyOnInputs :
    (holding [5] 0 0 [] []).issue 1 ≠ { (holding [5] 99 1 [7] []).issue 1 with blk := [(0, 5), (1, 6)] } ∧
    ((holding [5] 0 0 [] []).issue 1).cmdl = ({ (holding [5] 99 1 [7] []).issue 1 with blk := [(0, 5), (1, 6)] } : State).cmdl ∧
    ∀ i, decode ((holding [5] 0 0 [] []).issue 1).cmdl = some i →
      AgreeOnInputs i ((holding [5] 0 0 [] []).issue 1) { (holding [5] 99 1 [7] []).issue 1 with blk := [(0, 5), (1, 6)] } := by
  refine ⟨fun h => absurd (congrArg State.width h) (by decide), rfl, fun i hi l hl => ?_⟩
  obtain rfl : Instr.selw = i := by
    have h : decode ((holding [5] 0 0 [] []).issue 1).cmdl = some .selw := by decide
    exact Option.some.inj (h.symm.trans hi)
  cases l with
  | reg r => cases r <;> first | rfl | cases hl
  | blk k =>
    have hk : k.val = 0 := by
      have h1 : k.val < 1 := by simpa [readsLoc, holding, State.issue] using hl
      omega
    show Datum.word (State.laneAt _ k.val) = Datum.word (State.laneAt _ k.val)
    rw [hk]; rfl
  | pkb j => cases hl
  | exp k => cases hl
  | exv k => cases hl

/-- Each command with a non-empty operand range written; a success, a failure and code 5 with it; and a second state that
agrees on what has been written (an unwritten lane differs). -/
theorem witness_InitialisedCommandIgnoresResetContent :
    (∀ i, operandsWritten i (holding [1, 2, 3] 2 0 [0x39] [(2, 9)]) = true) ∧
    seen State.code (exec .pack (holding [1, 2, 3] 2 0 [0x39] [(2, 9)])) = some .ok ∧
    (operandsWritten .pack (holding [4] 2 0 [] []) = true ∧
      seen State.code (exec .pack (holding [4] 2 0 [] [])) = some .widthOverflow ∧
      spoilsLoc .pack (holding [4] 2 0 [] []) (.blk 0) = false ∧ (holding [4] 2 0 [] []).writtenAt (.blk 0) = true) ∧
    (operandsWritten .pack (holding [4] 33 0 [] []) = true ∧
      seen State.code (exec .pack (holding [4] 33 0 [] [])) = some .illegalCommand) ∧
    ∀ l, l ≠ .reg .status → State.reset.writtenAt l = true →
      ({ State.reset with blk := [(0, 5)] } : State).elementAt l = State.reset.elementAt l := by
  refine ⟨fun i => by cases i <;> decide, by decide, by decide, by decide, fun l hl hw => ?_⟩
  cases l with
  | reg r =>
    cases r
    case status => exact absurd rfl hl
    all_goals rfl
  | _ => cases hw

/-- Every bound, met and passed by one. -/
theorem witness_IllegalOperandsCompleteWithCodeFive :
    (∀ i, operandsLegal i atBounds = true) ∧ (∀ i, operandsLegal i { atBounds with count := 257 } = false) ∧
    operandsLegal .pack { atBounds with width := 33 } = false ∧ operandsLegal .unpk { atBounds with plen := 1025 } = false ∧
    operandsLegal .pdec { atBounds with excnt := 257 } = false ∧
    (∃ t, exec .selw State.reset = .next t) := by
  refine ⟨fun i => by cases i <;> decide, fun i => by cases i <;> decide, by decide, by decide, by decide, _, rfl⟩

/-- A lane at `2^WIDTH` and one below it; width 32; COUNT 0; another command. -/
theorem witness_WidthOverflowExactly :
    (operandsLegal .pack (holding [4] 2 0 [] []) = true ∧
      seen State.code (exec .pack (holding [4] 2 0 [] [])) = some .widthOverflow) ∧
    (operandsLegal .pack (holding [3] 2 0 [] []) = true ∧ seen State.code (exec .pack (holding [3] 2 0 [] [])) = some .ok) ∧
    ((holding [0xFFFFFFFF] 32 0 [] []).width.toNat = 32 ∧
      seen State.code (exec .pack (holding [0xFFFFFFFF] 32 0 [] [])) = some .ok) ∧
    ((holding [] 0 0 [] []).count = 0 ∧ seen State.code (exec .pack (holding [] 0 0 [] [])) = some .ok) ∧
    (Instr.penc ≠ .pack ∧ seen State.code (exec .penc (holding [4] 2 0 [] [])) = some .ok) := by decide

/-- PLEN one short of the need and at it, for both commands; width 0; COUNT 0; another command. -/
theorem witness_TruncatedBufferExactly :
    (operandsLegal .unpk (holding [1, 1, 1] 3 0 [0xC5] []) = true ∧
      seen State.code (exec .unpk (holding [1, 1, 1] 3 0 [0xC5] [])) = some .truncatedBuffer ∧
      seen State.code (exec .unpk (holding [1, 1, 1] 3 0 [0xC5, 0] [])) = some .ok) ∧
    (operandsLegal .pdec (holding [1, 1, 1] 3 0 [0xC5] []) = true ∧
      seen State.code (exec .pdec (holding [1, 1, 1] 3 0 [0xC5] [])) = some .truncatedBuffer) ∧
    ((holding [1, 1, 1] 0 0 [] []).width = 0 ∧ seen State.code (exec .unpk (holding [1, 1, 1] 0 0 [] [])) = some .ok) ∧
    ((holding [] 3 0 [] []).count = 0 ∧ seen State.code (exec .pdec (holding [] 3 0 [] [])) = some .ok) ∧
    (Instr.selw ≠ .unpk ∧ Instr.selw ≠ .pdec ∧
      seen State.code (exec .selw (holding [1, 1, 1] 3 0 [0xC5] [])) = some .ok) := by decide

/-- Budgets -1 and 0; another command. -/
theorem witness_BudgetUnreachableExactly :
    (operandsLegal .penc (holding [1] 0 0xFFFFFFFF [] []) = true ∧
      (holding [1] 0 0xFFFFFFFF [] []).budget.getLsbD 31 = true ∧
      seen State.code (exec .penc (holding [1] 0 0xFFFFFFFF [] [])) = some .budgetUnreachable) ∧
    (operandsLegal .penc (holding [1] 0 0x7FFFFFFF [] []) = true ∧
      (holding [1] 0 0x7FFFFFFF [] []).budget.getLsbD 31 = false) ∧
    (Instr.pack ≠ .penc ∧ seen State.code (exec .pack (holding [1] 1 0 [] [])) = some .ok ∧
      seen State.code (exec .pack (holding [2] 1 0 [] [])) = some .widthOverflow ∧
      Loc.blk 0 ≠ .reg .budget ∧ spoilsLoc .pack (holding [2] 1 0 [] []) (.blk 0) = false) := by decide

/-- A position at COUNT, one below it; another command. -/
theorem witness_PositionOutOfRangeExactly :
    (operandsLegal .pdec (holding [0, 0, 0, 0] 2 0 [0x1B] [(4, 9)]) = true ∧
      seen State.code (exec .pdec (holding [0, 0, 0, 0] 2 0 [0x1B] [(4, 9)])) = some .positionOutOfRange ∧
      seen State.code (exec .pdec (holding [0, 0, 0, 0] 2 0 [0x1B] [(3, 9)])) = some .ok) ∧
    (Instr.unpk ≠ .pdec ∧
      seen State.code (exec .unpk (holding [0, 0, 0, 0] 2 0 [0x1B] [(4, 9)])) = some .ok) := by decide

theorem witness_CodeTableIsExact :
    decode (State.reset.issue 0).cmdl = none ∧
    seen State.code (complete (State.reset.issue 0)) = some .illegalCommand := by decide

theorem witness_SelwWritesLeastFittingWidth : atBounds.count.toNat ≤ 256 ∧ State.reset.count.toNat ≤ 256 := by decide

theorem witness_PackWritesTheBitStream :
    (holding [7, 0, 3] 3 0 [] []).count.toNat ≤ 256 ∧ (holding [7, 0, 3] 3 0 [] []).width.toNat ≤ 32 ∧
    ∀ i < (holding [7, 0, 3] 3 0 [] []).count.toNat,
      ((holding [7, 0, 3] 3 0 [] []).laneAt i).toNat < 2 ^ (holding [7, 0, 3] 3 0 [] []).width.toNat := by decide

theorem witness_UnpkWritesTheFields :
    atBounds.count.toNat ≤ 256 ∧ atBounds.width.toNat ≤ 32 ∧ atBounds.plen.toNat ≤ 1024 ∧
    ceilDiv (atBounds.count.toNat * atBounds.width.toNat) 8 ≤ atBounds.plen.toNat :=
  ⟨by decide, by decide, by decide, Nat.le_of_eq rfl⟩

theorem witness_PencWritesTheEncodedBlock :
    (holding [3, 1, 70000] 0 1 [] []).count.toNat ≤ 256 ∧ 0 ≤ (holding [3, 1, 70000] 0 1 [] []).budget.toInt ∧
    0 ≤ State.reset.budget.toInt := by decide

/-- A repeated position: the last entry is met by the first clause, lane 0 by the second. -/
theorem witness_PdecWritesTheOverlaidBlock :
    (holding [0, 0, 0, 0] 2 0 [0x1B] [(3, 7), (3, 9)]).count.toNat ≤ 256 ∧
    (holding [0, 0, 0, 0] 2 0 [0x1B] [(3, 7), (3, 9)]).width.toNat ≤ 32 ∧
    (holding [0, 0, 0, 0] 2 0 [0x1B] [(3, 7), (3, 9)]).plen.toNat ≤ 1024 ∧
    (holding [0, 0, 0, 0] 2 0 [0x1B] [(3, 7), (3, 9)]).excnt.toNat ≤ 256 ∧
    ceilDiv ((holding [0, 0, 0, 0] 2 0 [0x1B] [(3, 7), (3, 9)]).count.toNat *
      (holding [0, 0, 0, 0] 2 0 [0x1B] [(3, 7), (3, 9)]).width.toNat) 8
      ≤ (holding [0, 0, 0, 0] 2 0 [0x1B] [(3, 7), (3, 9)]).plen.toNat ∧
    (∀ k < (holding [0, 0, 0, 0] 2 0 [0x1B] [(3, 7), (3, 9)]).excnt.toNat,
      ((holding [0, 0, 0, 0] 2 0 [0x1B] [(3, 7), (3, 9)]).posAt k).toNat
        < (holding [0, 0, 0, 0] 2 0 [0x1B] [(3, 7), (3, 9)]).count.toNat) := by decide

/-- A failure of each command that has one, and a location whose mark is not STATUS's. -/
theorem witness_FailureStaysInsideItsRange :
    Loc.blk 0 ≠ .reg .status ∧
    seen State.code (exec .pack (holding [4] 2 0 [] [])) = some .widthOverflow ∧
    seen State.code (exec .unpk (holding [1, 1, 1] 3 0 [0xC5] [])) = some .truncatedBuffer ∧
    seen State.code (exec .pdec (holding [1] 0 0 [] [(1, 9)])) = some .positionOutOfRange ∧
    seen State.code (exec .penc (holding [1] 0 0x80000000 [] [])) = some .budgetUnreachable := by decide

/-! Witnesses of the statements about the functions -/

/-- A width at, above and below the selected one. -/
theorem witness_SelectWidthIsLeastPackableWidth :
    selectWidth [1, 2, 3, 4] = 3 ∧ 3 ≤ 32 ∧ selectWidth [0xFFFFFFFF] ≤ 32 ∧ 2 < selectWidth [1, 2, 3, 4] ∧
    pack [1, 2, 3, 4] 2 = .error .widthOverflow := by decide

theorem witness_SelectWidthConsequences :
    selectWidth [0, 0] = 0 ∧ selectWidth [0, 1] = 1 ∧ [1, 2, 4].Perm [4, (1 : Word), 2] ∧ excess [1, 2, 4] 3 = 0 := by
  decide

theorem witness_PackedLengthLaw :
    pack [1, 2, 3] 2 = .ok [0x39] ∧ (0 : Nat) = 0 ∧ 256 ≤ Config.NMAX ∧ 32 ≤ Config.WMAX := by decide

theorem witness_PackedBufferAsOneNumber : pack [5, 0, 3] 3 = .ok [0xC5, 0x00] ∧ 2 < [(5 : Word), 0, 3].length := by decide

/-- The function's hypotheses at width 32, and a successful PACK followed by a state that holds what it left. -/
theorem witness_PackThenUnpackGivesTheBlockBack :
    (∀ v ∈ [(0xFFFFFFFF : Word)], v.toNat < 2 ^ 32) ∧
    ∃ t u : State, exec .pack (holding [5, 0, 3] 3 0 [] []) = .next t ∧ t.code = .ok ∧ u.blk = [] ∧ u.width = t.width ∧
      u.count = t.count ∧ u.plen = t.plen ∧ ∀ j, u.byteAt j = t.byteAt j := by
  obtain ⟨t, ht⟩ : ∃ t, exec .pack (holding [5, 0, 3] 3 0 [] []) = .next t := ⟨_, rfl⟩
  have hc : seen State.code (exec .pack (holding [5, 0, 3] 3 0 [] [])) = some .ok := by decide
  rw [ht] at hc
  exact ⟨fun v _ => v.isLt, t, { t with blk := [] }, ht, Option.some.inj hc, rfl, rfl, rfl, rfl, fun _ => rfl⟩

/-- Zero padding, set padding, and a byte too many. -/
theorem witness_UnpackThenPackGivesTheBytesBack :
    unpack [0x39] 2 3 = .ok [1, 2, 3] ∧ pack [1, 2, 3] 2 = .ok [0x39] ∧
    unpack [0xF9] 2 3 = .ok [1, 2, 3] ∧ byteBit [0xF9] 6 = true ∧
    unpack [0x39, 0x00] 2 3 = .ok [1, 2, 3] := by decide

theorem witness_PackIsInjective : [(1 : Word), 2, 3].length = [(1 : Word), 2, 3].length ∧ pack [1, 2, 3] 2 = .ok [0x39] := by
  decide

theorem witness_UnpackFailsExactlyWhenTruncated :
    unpack [0xC5] 3 3 = .error .truncatedBuffer ∧ [(0xC5 : Byte)].length < ceilDiv (3 * 3) 8 ∧
    ceilDiv (2 * 3) 8 ≤ [(0xC5 : Byte)].length := by decide

/-- Two buffers that differ in padding and beyond the need. -/
theorem witness_UnpackReadsOnlyNeededBits :
    ceilDiv (3 * 2) 8 ≤ [(0x39 : Byte)].length ∧ ceilDiv (3 * 2) 8 ≤ [(0xF9 : Byte), 0xAA].length ∧
    ∀ r < 3 * 2, byteBit [0x39] r = byteBit [0xF9, 0xAA] r := by decide

theorem witness_UnpackedElementsAreInRange :
    unpack [0xA5, 0x5A] 5 3 = .ok [5, 21, 22] ∧
    unpack [0x78, 0x56, 0x34, 0x12] 32 1 = .ok [0x12345678] := by decide

theorem witness_ShortenedBufferIsTruncated :
    pack [5, 0, 3] 3 = .ok [0xC5, 0x00] ∧ 1 ≤ [(0xC5 : Byte), 0x00].length ∧
    seen (fun t => (t.code, t.plen.toNat)) (exec .pack (holding [5, 0, 3] 3 0 [] [])) = some (.ok, 2) ∧
    ceilDiv (3 * 3) 8 ≤ [(0xC5 : Byte), 0x00].length := by decide

theorem witness_EncodeFailsExactlyOnNegativeBudget :
    encodeBlock [] (-1) = .error .budgetUnreachable ∧ (-1 : Int) < 0 ∧ (0 : Int) ≤ 0 := by decide

/-- Block B of 95_test_vectors.md at budgets 2 and 3, at budget 0, and at a budget above its length. -/
theorem witness_EncodeLaws :
    encodeBlock [7, 300, 12, 0, 65535, 1, 2, 3] 2 =
      .ok { baseWidth := 4, packed := [0x07, 0x0C, 0x10, 0x32], exceptions := [(1, 300), (4, 65535)] } ∧
    (2 : Int) ≤ 3 ∧
    encodeBlock [7, 300, 12, 0, 65535, 1, 2, 3] 3 =
      .ok { baseWidth := 3, packed := [0x07, 0x80, 0x68], exceptions := [(1, 300), (2, 12), (4, 65535)] } ∧
    encodeBlock [1] 0 = .ok { baseWidth := 1, packed := [0x01], exceptions := [] } ∧
    encodeBlock [1] 5 = .ok { baseWidth := 0, packed := [], exceptions := [(0, 1)] } ∧ (1 : Int) ≤ 5 := by decide

theorem witness_EncodeEmptyBlock : (0 : Int) ≤ 0 ∧ (-1 : Int) < 0 := by decide

theorem witness_EncodeThenDecodeGivesTheBlockBack :
    [(3 : Word), 1, 70000].length ≤ 2 ^ 32 ∧ (0 : Int) ≤ 1 ∧
    ∃ t u : State, exec .penc (holding [3, 1, 70000] 0 1 [] []) = .next t ∧ t.code = .ok ∧ u.blk = [] ∧
      u.width = t.width ∧ u.count = t.count ∧ u.plen = t.plen ∧ u.excnt = t.excnt ∧ (∀ j, u.byteAt j = t.byteAt j) ∧
      (∀ k, u.posAt k = t.posAt k) ∧ ∀ k, u.valAt k = t.valAt k := by
  obtain ⟨t, ht⟩ : ∃ t, exec .penc (holding [3, 1, 70000] 0 1 [] []) = .next t := ⟨_, rfl⟩
  have hc : seen State.code (exec .penc (holding [3, 1, 70000] 0 1 [] [])) = some .ok := by decide
  rw [ht] at hc
  exact ⟨by decide, by decide, t, { t with blk := [] }, ht, Option.some.inj hc, rfl, rfl, rfl, rfl, rfl,
    fun _ => rfl, fun _ => rfl, fun _ => rfl⟩

theorem witness_DecodeErrorsInOrder :
    decodeBlock { baseWidth := 2, packed := [], exceptions := [(4, 9)] } 4 = .error .truncatedBuffer ∧
    decodeBlock { baseWidth := 2, packed := [0x1B], exceptions := [(4, 9)] } 4 = .error .positionOutOfRange := by decide

theorem witness_ReductionTreeComputesSelectWidth : atBounds.count.toNat ≤ Config.NMAX := by decide

theorem witness_ShifterComputesPack : 32 ≤ 32 ∧ ∀ v ∈ [(0xFFFFFFFF : Word), 0], v.toNat < 2 ^ 32 :=
  ⟨by decide, fun v _ => v.isLt⟩

theorem witness_DeserializerComputesUnpack : 31 ≤ 32 ∧ ceilDiv (1 * 31) 8 ≤ [(1 : Byte), 2, 3, 4].length := by decide

theorem witness_FrameParsesBack :
    (EncodedBlock.mk 32 [1, 2] [(0, 5)]).baseWidth ≤ 32 ∧ (EncodedBlock.mk 32 [1, 2] [(0, 5)]).exceptions.length < 2 ^ 32 ∧
    12 < 5 + 8 * (EncodedBlock.mk 32 [1, 2] [(0, 5)]).exceptions.length ∧ 32 < (33 : Byte).toNat := by decide

theorem witness_StepsOfDifferentCoresCommute :
    [inFlight 1 [] (holding [5] 0 0 [] []), State.reset][1]? = some State.reset ∧
    refusedBy (step (inFlight 1 [.write (.reg .cmd 1)] State.reset)) = some .hostAccessWhileBusy ∧
    (0 : Nat) ≠ 1 ∧ ∃ q r, stepInstance 0 [inFlight 1 [] (holding [5] 0 0 [] []), State.reset] = .next q ∧
      stepInstance 1 [inFlight 1 [] (holding [5] 0 0 [] []), State.reset] = .next r :=
  ⟨rfl, by decide, by decide, _, _, rfl, rfl⟩

end Sys2Proof.Tests
end

section
/-! SUPPORT. The frame of a completion: what it leaves unchanged (10_state.md R35, R37; 40_command_execution.md R128, R130). -/

namespace Sys2Proof.Machine

/-! ### Elements that a named update leaves alone -/

theorem State.elementAt_setWidth (s : State) (w : Nat) {l : Loc} (h : l ≠ .reg .width) :
    (s.setWidth w).elementAt l = s.elementAt l := by
  cases l with
  | reg r =>
    cases r with
    | width => exact absurd rfl h
    | _ => rfl
  | _ => rfl

theorem State.elementAt_writeBlock (s : State) (b : List Word) {l : Loc} (h : ∀ i, l = .blk i → b.length ≤ i.val) :
    (s.writeBlock b).elementAt l = s.elementAt l := by
  cases l with
  | reg r => cases r <;> rfl
  | blk i => exact congrArg Datum.word ((s.laneAt_writeBlock b i).trans (dif_neg (Nat.not_lt.mpr (h i rfl))))
  | _ => rfl

theorem State.elementAt_writePacked (s : State) (q : List Byte) {l : Loc} (hr : l ≠ .reg .plen)
    (h : ∀ j, l = .pkb j → q.length ≤ j.val) : (s.writePacked q).elementAt l = s.elementAt l := by
  cases l with
  | reg r =>
    cases r with
    | plen => exact absurd rfl hr
    | _ => rfl
  | pkb j => exact congrArg Datum.byte ((s.byteAt_writePacked q j).trans (dif_neg (Nat.not_lt.mpr (h j rfl))))
  | _ => rfl

theorem State.elementAt_writeExceptions (s : State) (x : List (Word × Word)) {l : Loc} (hr : l ≠ .reg .excnt)
    (h : ∀ k, l = .exp k ∨ l = .exv k → x.length ≤ k.val) : (s.writeExceptions x).elementAt l = s.elementAt l := by
  cases l with
  | reg r =>
    cases r with
    | excnt => exact absurd rfl hr
    | _ => rfl
  | exp k =>
    exact congrArg Datum.word ((s.posAt_writeExceptions x k).trans (dif_neg (Nat.not_lt.mpr (h k (.inl rfl)))))
  | exv k =>
    exact congrArg Datum.word ((s.valAt_writeExceptions x k).trans (dif_neg (Nat.not_lt.mpr (h k (.inr rfl)))))
  | _ => rfl

theorem State.elementAt_finish (s : State) (c : ResultCode) {l : Loc} (h : l ≠ .reg .status) :
    (s.finish c).elementAt l = s.elementAt l := by
  cases l with
  | reg r =>
    cases r with
    | status => exact absurd rfl h
    | _ => rfl
  | _ => rfl

/-- A failure leaves every location outside its command's failure range alone (40_command_execution.md R130). -/
theorem State.elementAt_spoil {i : Instr} {s : State} {l : Loc} (h : spoilsLoc i s l = false) :
    (s.spoil (failureRange i s)).elementAt l = s.elementAt l := by
  cases l with
  | reg r =>
    cases r with
    | width => exact congrArg Datum.word (if_neg (Bool.eq_false_iff.mp h))
    | plen => exact congrArg Datum.word (if_neg (Bool.eq_false_iff.mp h))
    | excnt => exact congrArg Datum.word (if_neg (Bool.eq_false_iff.mp h))
    | _ => rfl
  | blk k => exact congrArg Datum.word (s.laneAt_spoil _ (by simpa [spoilsLoc] using h))
  | pkb j => exact congrArg Datum.byte (s.byteAt_spoil _ (by simpa [spoilsLoc] using h))
  | exp k => exact congrArg Datum.word (s.posAt_spoil _ (by simpa [spoilsLoc] using h))
  | exv k => exact congrArg Datum.word (s.valAt_spoil _ (by simpa [spoilsLoc] using h))

/-! ### The lengths of what PACK and PENC write -/

theorem pack_length {b : List Word} {w : Nat} {q : List Byte} (h : pack b w = .ok q) :
    q.length = packedLength b.length w := by
  obtain ⟨-, rfl⟩ := pack_ok_cases h
  simp

/-- An encoded block of the core fits PKB, EXP and EXV (20_memory.md R64, 44_pfor_codec.md R205). -/
theorem encodeBlock_lengths {b : List Word} {budget : Int} {e : EncodedBlock} (hb : b.length ≤ Config.NMAX)
    (h : encodeBlock b budget = .ok e) :
    e.packed.length ≤ Config.PKBMAX ∧ e.exceptions.length ≤ Config.EXMAX := by
  rcases encodeBlock_cases b budget with ⟨-, he⟩ | ⟨w, hw, -, he⟩
  · cases he.symm.trans h
  · obtain rfl := Except.ok.inj (he.symm.trans h)
    have hw32 : w ≤ Config.WMAX := ((chooseWidth_eq_some_iff b budget w).mp hw).1
    exact ⟨by simpa using packedLength_le hb hw32,
      (outliersFrom_length w 0 b).trans_le ((excess_le_length b w).trans hb)⟩

/-- A length that fits a buffer is read back from its register as it is. -/
theorem length_le_of_register_le {n bound k : Nat} (hn : n ≤ bound) (hbound : bound < 2 ^ 32)
    (h : (BitVec.ofNat 32 n).toNat ≤ k) : n ≤ k := by
  rwa [BitVec.toNat_ofNat, Nat.mod_eq_of_lt (by omega)] at h

/-! ### The frame of a completion -/

/-- PACK changes PLEN and the bytes below it. -/
theorem runPack_elementAt {s t : State} {l : Loc} (hlegal : operandsLegal .pack s = true) (hrun : runPack s = .ok t)
    (hw : writesLoc .pack s t l = false) : t.elementAt l = s.elementAt l := by
  obtain ⟨q, hq, rfl⟩ := runPack_ok hrun
  obtain ⟨hcount, hwidth⟩ : s.count.toNat ≤ Config.NMAX ∧ s.width.toNat ≤ Config.WMAX := by
    simpa [operandsLegal] using hlegal
  have hlen : q.length ≤ Config.PKBMAX := by
    rw [pack_length hq, State.block_length]
    exact packedLength_le hcount hwidth
  refine s.elementAt_writePacked q (by rintro rfl; cases hw) ?_
  rintro j rfl
  exact length_le_of_register_le hlen (by decide) (Nat.not_lt.mp (of_decide_eq_false hw))

/-- PENC changes WIDTH, PLEN, EXCNT, the bytes below PLEN and the exception entries below EXCNT. -/
theorem runPenc_elementAt {s t : State} {l : Loc} (hlegal : operandsLegal .penc s = true) (hrun : runPenc s = .ok t)
    (hw : writesLoc .penc s t l = false) : t.elementAt l = s.elementAt l := by
  obtain ⟨e, he, rfl⟩ := runPenc_ok hrun
  have hcount : s.block.length ≤ Config.NMAX := by simpa [operandsLegal] using hlegal
  obtain ⟨hbytes, hentries⟩ := encodeBlock_lengths hcount he
  unfold State.writeEncoded at hw ⊢
  rw [State.elementAt_writeExceptions, State.elementAt_writePacked, State.elementAt_setWidth]
  · rintro rfl; cases hw
  · rintro rfl; cases hw
  · rintro j rfl
    exact length_le_of_register_le hbytes (by decide) (Nat.not_lt.mp (of_decide_eq_false hw))
  · rintro rfl; cases hw
  · rintro k (rfl | rfl)
    · exact length_le_of_register_le hentries (by decide) (Nat.not_lt.mp (of_decide_eq_false hw))
    · exact length_le_of_register_le hentries (by decide) (Nat.not_lt.mp (of_decide_eq_false hw))

/-- A successful `run` changes nothing beside the `w` cells of its command (10_state.md R35). -/
theorem runOf_elementAt {i : Instr} {s t : State} {l : Loc} (hlegal : operandsLegal i s = true)
    (hrun : runOf i s = .ok t) (hw : writesLoc i s t l = false) : t.elementAt l = s.elementAt l := by
  cases i with
  | selw =>
    obtain rfl := runSelw_ok hrun
    exact s.elementAt_setWidth _ (by rintro rfl; cases hw)
  | pack => exact runPack_elementAt hlegal hrun hw
  | unpk =>
    obtain ⟨b, hb, rfl⟩ := runUnpk_ok hrun
    obtain ⟨-, rfl⟩ := unpack_ok_cases hb
    refine s.elementAt_writeBlock _ ?_
    rintro k rfl
    simpa [writesLoc] using hw
  | penc => exact runPenc_elementAt hlegal hrun hw
  | pdec =>
    obtain ⟨b, hb, rfl⟩ := runPdec_ok hrun
    refine s.elementAt_writeBlock _ ?_
    rintro k rfl
    rw [decodeBlock_length hb]
    simpa [writesLoc] using hw

/-- STATUS is a `w` cell of every command (10_state.md R35). -/
theorem ne_status_of_writesLoc {i : Instr} {s t : State} {l : Loc} (h : writesLoc i s t l = false) :
    l ≠ .reg .status := by
  rintro rfl
  cases i <;> cases h

/-- A completion changes nothing beside the `w` cells of its command and its failure range (10_state.md R35,
40_command_execution.md R130, R131). -/
theorem exec_elementAt {i : Instr} {s t : State} {l : Loc} (h : exec i s = .next t)
    (hw : writesLoc i s t l = false) (hf : spoilsLoc i s l = false) : t.elementAt l = s.elementAt l := by
  have hl := ne_status_of_writesLoc hw
  rcases exec_cases i s with ⟨-, he⟩ | ⟨hlegal, u, hrun, he⟩ | ⟨-, k, -, he⟩
  · obtain rfl := Host.Outcome.next.inj (he.symm.trans h)
    exact s.elementAt_finish _ hl
  · obtain rfl := Host.Outcome.next.inj (he.symm.trans h)
    exact (u.elementAt_finish _ hl).trans (runOf_elementAt hlegal hrun hw)
  · obtain rfl := Host.Outcome.next.inj (he.symm.trans h)
    exact (State.elementAt_finish _ _ hl).trans (State.elementAt_spoil hf)

/-! ### Inputs and outputs of a command are disjoint

Both tables are checked cell by cell: in each cell the location is no `r` cell, or it is no output. -/

/-- No `r` cell of a command is also a `w` cell (10_state.md R35). -/
theorem writesLoc_eq_false_of_readsLoc {i : Instr} {s : State} (t : State) {l : Loc} (h : readsLoc i s l = true) :
    writesLoc i s t l = false := by
  cases l with
  | reg r => cases i <;> cases r <;> trivial
  | _ => cases i <;> trivial

/-- No `r` cell of a command lies in its failure range (10_state.md R37, 40_command_execution.md R130). -/
theorem spoilsLoc_eq_false_of_readsLoc {i : Instr} {s : State} {l : Loc} (h : readsLoc i s l = true) :
    spoilsLoc i s l = false := by
  cases l with
  | reg r => cases i <;> cases r <;> trivial
  | _ => cases i <;> simp_all [readsLoc, spoilsLoc, failureRange]

/-! ### Completion -/

theorem complete_illegal {s : State} (h : decode s.cmdl = none) : complete s = .next (s.finish .illegalCommand) := by
  rw [complete, h]; rfl

theorem complete_of_decode {s : State} {i : Instr} (h : decode s.cmdl = some i) : complete s = exec i s := by
  rw [complete, h]

/-- No completion changes COUNT: it is neither a `w` cell nor in a failure range (10_state.md R37). -/
theorem exec_count {i : Instr} {s t : State} (h : exec i s = .next t) : t.count = s.count :=
  Datum.word.inj (exec_elementAt (l := .reg .count) h (by cases i <;> rfl) (by cases i <;> rfl))

/-- No completion changes BUDGET: it is neither a `w` cell nor in a failure range (10_state.md R37). -/
theorem exec_budget {i : Instr} {s t : State} (h : exec i s = .next t) : t.budget = s.budget :=
  Datum.word.inj (exec_elementAt (l := .reg .budget) h (by cases i <;> rfl) (by cases i <;> rfl))

/-- Settles O20: the frame of a completion holds on success and on failure, and the `r` cells of a command lie outside both
its `w` cells and its failure range. -/
theorem completionNeverChangesInputs : Obligations.CompletionNeverChangesInputs := by
  intro s
  obtain ⟨t, ht⟩ := complete_next s
  cases hd : decode s.cmdl with
  | none =>
    obtain rfl := Host.Outcome.next.inj ((complete_illegal hd).symm.trans ht)
    exact ⟨_, ht, rfl, rfl, fun i hi => by cases hi⟩
  | some i =>
    have he : exec i s = .next t := (complete_of_decode hd).symm.trans ht
    refine ⟨t, ht, exec_count he, exec_budget he, ?_⟩
    rintro _ ⟨⟩ l hl
    exact exec_elementAt he (writesLoc_eq_false_of_readsLoc t hl) (spoilsLoc_eq_false_of_readsLoc hl)

end Sys2Proof.Machine
end

section
/-! The laws of the packed buffer (20_memory.md section 3): its length, and the one little-endian natural it stands for. -/

namespace Sys2Proof.Machine

/-! ### The length law -/

/-- A block of no bits occupies no byte (20_memory.md R64). -/
theorem packedLength_eq_zero {n w : Nat} (h : n = 0 ∨ w = 0) : packedLength n w = 0 := by
  rw [packedLength_eq, Nat.mul_eq_zero.mpr h]

/-- At the full width every element occupies 4 bytes (20_memory.md R64). -/
theorem packedLength_32 (n : Nat) : packedLength n 32 = 4 * n := by
  rw [packedLength_eq]; omega

/-- Settles O39: `pack` lists one byte per index below the packed length, and the bounds are those of `ceilDiv`. -/
theorem packedLengthLaw : Obligations.PackedLengthLaw :=
  ⟨fun _ _ _ h => pack_length h, fun _ _ => packedLength_eq_zero, packedLength_32,
    fun _ _ => packedLength_le, packedLength_32 Config.NMAX, rfl⟩

/-! ### The little-endian natural

The elements are bytes or words, so the lemma about the number's bits is stated for any element size `m`: bytes have digit
width 8, the elements of a block the width they are packed at. -/

/-- The natural whose digits in base `2 ^ w` are the given elements, the least significant one first (20_memory.md R66). -/
def radixValue {m : Nat} (w : Nat) (b : List (BitVec m)) : Nat := b.foldr (fun v n => v.toNat + 2 ^ w * n) 0

/-- When every element is a digit, bit `p` of the number is bit `p mod w` of element `floor(p / w)`. -/
theorem testBit_radixValue {m w : Nat} {b : List (BitVec m)} (h : ∀ v ∈ b, v.toNat < 2 ^ w) (p : Nat) :
    (radixValue w b).testBit p = (decide (p < b.length * w) && (b.getD (p / w) 0).getLsbD (p % w)) := by
  induction b generalizing p with
  | nil => simp [radixValue]
  | cons v b ih =>
    obtain ⟨hv, hb⟩ := List.forall_mem_cons.mp h
    have hcons : radixValue w (v :: b) = 2 ^ w * radixValue w b + v.toNat := Nat.add_comm _ _
    have hlen : (v :: b).length * w = b.length * w + w := Nat.succ_mul _ _
    rw [hcons, hlen, Nat.testBit_two_pow_mul_add _ hv]
    by_cases hp : p < w
    · have hin : p < b.length * w + w := by omega
      simp [hp, hin, Nat.div_eq_of_lt hp, Nat.mod_eq_of_lt hp, BitVec.getLsbD]
    · rw [if_neg hp, ih hb]
      by_cases hw : w = 0
      · simp [hw]
      · have hwp : w ≤ p := Nat.le_of_not_lt hp
        have hin : p - w < b.length * w ↔ p < b.length * w + w := by omega
        rw [Nat.div_eq_sub_div (Nat.pos_of_ne_zero hw) hwp, Nat.mod_eq_sub_mod hwp, List.getD_cons_succ]
        simp only [hin]

/-- The bits of a block's number are its stream bits (20_memory.md R65). -/
theorem testBit_radixValue_block {b : List Word} {w : Nat} (h : ∀ v ∈ b, v.toNat < 2 ^ w) (p : Nat) :
    (radixValue w b).testBit p = blockBit b w p := testBit_radixValue h p

/-- The bits of a buffer's number are its stream bits, up to its end (20_memory.md R65). -/
theorem testBit_radixValue_bytes (q : List Byte) (p : Nat) :
    (radixValue 8 q).testBit p = (decide (p < 8 * q.length) && byteBit q p) := by
  rw [Nat.mul_comm]
  exact testBit_radixValue (fun v _ => v.isLt) p

/-- A packing stands for the same number as its block: the padding beyond the last element is zero (20_memory.md R66, R67). -/
theorem radixValue_pack {b : List Word} {w : Nat} {q : List Byte} (h : pack b w = .ok q) :
    radixValue 8 q = radixValue w b := by
  obtain ⟨hfits, hq⟩ := pack_ok_cases h
  apply Nat.eq_of_testBit_eq
  intro p
  rw [testBit_radixValue_bytes, testBit_radixValue_block hfits, pack_length h]
  by_cases hp : p < 8 * packedLength b.length w
  · rw [hq, byteBit_packed b w _ p hp, decide_eq_true hp, Bool.true_and]
  · have hpad : b.length * w ≤ p := (packedLength_bounds b.length w).1.trans (Nat.le_of_not_lt hp)
    rw [decide_eq_false hp, Bool.false_and, blockBit_padding b w p hpad]

/-- Element `i` is digit `i` of its block's number (20_memory.md R66). -/
theorem getD_toNat_eq_digit {b : List Word} {w i : Nat} (h : ∀ v ∈ b, v.toNat < 2 ^ w) (hi : i < b.length) :
    (b.getD i 0).toNat = radixValue w b / 2 ^ (i * w) % 2 ^ w := by
  have hv : (b.getD i 0).toNat < 2 ^ w := by
    rw [List.getD_eq_getElem _ _ hi]
    exact h _ (List.getElem_mem hi)
  apply Nat.eq_of_testBit_eq
  intro k
  rw [Nat.testBit_mod_two_pow, Nat.testBit_div_two_pow, testBit_radixValue_block h, Nat.add_comm k]
  by_cases hk : k < w
  · rw [blockBit_element b w i k hi hk, decide_eq_true hk, Bool.true_and]
    rfl
  · rw [decide_eq_false hk, Bool.false_and]
    exact Nat.testBit_lt_two_pow (hv.trans_le (Nat.pow_le_pow_right Nat.two_pos (Nat.le_of_not_lt hk)))

/-- Settles O40: the bytes and the elements are digits of one number, in base 256 and in base `2 ^ w`. -/
theorem packedBufferAsOneNumber : Obligations.PackedBufferAsOneNumber := by
  intro b w q h
  have heq : q.foldr (fun byte n => byte.toNat + 256 * n) 0 = radixValue w b := radixValue_pack h
  rw [heq]
  exact ⟨rfl, fun i hi => getD_toNat_eq_digit (pack_ok_cases h).1 hi⟩

end Sys2Proof.Machine
end

section
/-! The decoder on its two fields, and the worked frame (30_encoding.md sections 1, 3 and 6). -/

namespace Sys2Proof

/-! ### The two fields as numbers -/

theorem toNat_fieldRsv (c : Word) : (fieldRsv c).toNat = c.toNat / 8 := by
  have hlt : c.toNat / 8 < 2 ^ 29 := by omega
  rw [fieldRsv, BitVec.extractLsb'_toNat, Nat.shiftRight_eq_div_pow, Nat.mod_eq_of_lt hlt]

theorem toNat_fieldOp (c : Word) : (fieldOp c).toNat = c.toNat % 8 := by
  rw [fieldOp, BitVec.extractLsb'_toNat, Nat.shiftRight_zero]

theorem fieldRsv_eq_iff (c : Word) (r : BitVec 29) : fieldRsv c = r ↔ c.toNat / 8 = r.toNat := by
  rw [← BitVec.toNat_inj, toNat_fieldRsv]

theorem fieldOp_eq_iff (c : Word) (o : BitVec 3) : fieldOp c = o ↔ c.toNat % 8 = o.toNat := by
  rw [← BitVec.toNat_inj, toNat_fieldOp]

/-! ### The decoder -/

/-- A set reserved bit makes a word illegal (30_encoding.md R98). -/
theorem decode_of_reservedBits {c : Word} (h : c.toNat / 8 ≠ 0) : decode c = none := by
  have hrsv : fieldRsv c ≠ 0 := mt (fieldRsv_eq_iff c 0).mp h
  rw [decode, decodeCmd, if_pos hrsv]

/-- With the reserved bits clear, `OP` alone decides (30_encoding.md R92, R96, R97). -/
theorem decode_of_reservedClear {c : Word} (h : c.toNat / 8 = 0) :
    decode c =
      if c.toNat % 8 = 1 then some .selw
      else if c.toNat % 8 = 2 then some .pack
      else if c.toNat % 8 = 3 then some .unpk
      else if c.toNat % 8 = 4 then some .penc
      else if c.toNat % 8 = 5 then some .pdec
      else none := by
  have hrsv : ¬ fieldRsv c ≠ 0 := not_not.mpr ((fieldRsv_eq_iff c 0).mpr h)
  rw [decode, decodeCmd, if_neg hrsv]
  simp only [fieldOp_eq_iff, BitVec.reduceToNat]
  split_ifs <;> rfl

/-- The legal command words are exactly 1 to 5 (30_encoding.md R92). -/
theorem decode_isSome_iff (c : Word) : (decode c).isSome = true ↔ 1 ≤ c.toNat ∧ c.toNat ≤ 5 := by
  by_cases h : c.toNat / 8 = 0
  · have hop : c.toNat % 8 = c.toNat := Nat.mod_eq_of_lt (by omega)
    rw [decode_of_reservedClear h, hop]
    split_ifs <;> simp <;> omega
  · have hlarge : 1 ≤ c.toNat → 5 < c.toNat := by omega
    simpa [decode_of_reservedBits h] using hlarge

/-- Settles O2: the reserved bits are tested first, then `OP` decides. -/
theorem decodeIsTotalByFields : Obligations.DecodeIsTotalByFields := by
  intro c
  refine ⟨?_, decode_isSome_iff c⟩
  by_cases h : c.toNat / 8 = 0
  · rw [if_neg (not_not.mpr h), decode_of_reservedClear h]
  · rw [if_pos h, decode_of_reservedBits h]

end Sys2Proof

namespace Sys2Proof.Machine

/-! ### The frame -/

/-- The frame of one exception and no packed bytes is the header and the entry's two fields (30_encoding.md R108). -/
theorem frameBytes_of_single (w : Nat) (p v : Word) :
    frameBytes { baseWidth := w, packed := [], exceptions := [(p, v)] } =
      BitVec.ofNat 8 w :: (littleEndian 1 ++ (littleEndian p ++ littleEndian v)) := by
  simp [frameBytes]

/-- Settles O59: the exception count, the position and the value are little-endian fields. -/
theorem workedFrameBytes : Obligations.WorkedFrameBytes := by
  have hcount : littleEndian 1 = [0x01, 0x00, 0x00, 0x00] := by decide
  have hposition : littleEndian 50 = [0x32, 0x00, 0x00, 0x00] := by decide
  have hvalue : littleEndian 1000000 = [0x40, 0x42, 0x0F, 0x00] := by decide
  rw [Obligations.WorkedFrameBytes, frameBytes_of_single, hcount, hposition, hvalue]
  rfl

end Sys2Proof.Machine
end

section
/-! What a completion can answer, read off its three outcomes, and what the answer depends on (40_command_execution.md R123
to R131). -/

namespace Sys2Proof.Machine

/-! ### The three outcomes of a command -/

theorem ErrorKind.code_ne_ok (k : ErrorKind) : k.code ≠ .ok := by cases k <;> decide

theorem ErrorKind.code_ne_illegalCommand (k : ErrorKind) : k.code ≠ .illegalCommand := by cases k <;> decide

theorem exec_of_illegalOperands {i : Instr} {s : State} (h : operandsLegal i s = false) :
    exec i s = .next (s.finish .illegalCommand) := by
  rw [exec_eq_conclude, conclude, h]; rfl

theorem exec_of_run_ok {i : Instr} {s t : State} (h : operandsLegal i s = true) (hrun : runOf i s = .ok t) :
    exec i s = .next (t.finish .ok) := by
  rw [exec_eq_conclude, conclude, if_pos h, hrun]

theorem exec_of_run_error {i : Instr} {s : State} {k : ErrorKind} (h : operandsLegal i s = true)
    (hrun : runOf i s = .error k) : exec i s = .next ((s.spoil (failureRange i s)).finish k.code) := by
  rw [exec_eq_conclude, conclude, if_pos h, hrun]; rfl

/-- Only illegal operands give a command code 5, and then nothing but the code and the phase is written
(40_command_execution.md R125). -/
theorem exec_code_illegalCommand {i : Instr} {s t : State} (h : exec i s = .next t) (hcode : t.code = .illegalCommand) :
    operandsLegal i s = false ∧ t = s.finish .illegalCommand := by
  rcases exec_cases i s with ⟨hlegal, he⟩ | ⟨-, u, -, he⟩ | ⟨-, k, -, he⟩
  · exact ⟨hlegal, (Host.Outcome.next.inj (he.symm.trans h)).symm⟩
  · obtain rfl := Host.Outcome.next.inj (he.symm.trans h)
    cases hcode
  · obtain rfl := Host.Outcome.next.inj (he.symm.trans h)
    exact absurd hcode k.code_ne_illegalCommand

/-! ### What a completion leaves unchanged -/

/-- The fields the model adds for the host and for the last reset (logs 1, 3 and 7). -/
def SameSurroundings (s t : State) : Prop := t.agenda = s.agenda ∧ t.answers = s.answers ∧ t.epoch = s.epoch

theorem runOf_sameSurroundings {i : Instr} {s t : State} (h : runOf i s = .ok t) : SameSurroundings s t := by
  cases i with
  | selw => obtain rfl := runSelw_ok h; exact ⟨rfl, rfl, rfl⟩
  | pack => obtain ⟨q, -, rfl⟩ := runPack_ok h; exact ⟨rfl, rfl, rfl⟩
  | unpk => obtain ⟨b, -, rfl⟩ := runUnpk_ok h; exact ⟨rfl, rfl, rfl⟩
  | penc => obtain ⟨e, -, rfl⟩ := runPenc_ok h; exact ⟨rfl, rfl, rfl⟩
  | pdec => obtain ⟨b, -, rfl⟩ := runPdec_ok h; exact ⟨rfl, rfl, rfl⟩

/-- Every completion ends in IDLE (40_command_execution.md R123) and leaves the model's own fields alone. -/
theorem exec_idle {i : Instr} {s t : State} (h : exec i s = .next t) : t.phase = .idle ∧ SameSurroundings s t := by
  rcases exec_cases i s with ⟨-, he⟩ | ⟨-, u, hrun, he⟩ | ⟨-, k, -, he⟩
  · obtain rfl := Host.Outcome.next.inj (he.symm.trans h)
    exact ⟨rfl, rfl, rfl, rfl⟩
  · obtain rfl := Host.Outcome.next.inj (he.symm.trans h)
    obtain ⟨hagenda, hanswers, hepoch⟩ := runOf_sameSurroundings hrun
    exact ⟨rfl, hagenda, hanswers, hepoch⟩
  · obtain rfl := Host.Outcome.next.inj (he.symm.trans h)
    exact ⟨rfl, rfl, rfl, rfl⟩

/-- STATUS counts with every failure range. -/
theorem ne_status_of_spoilsLoc {i : Instr} {s : State} {l : Loc} (h : spoilsLoc i s l = false) : l ≠ .reg .status := by
  rintro rfl; cases h

/-- Success changes nothing beside the `w` cells (10_state.md R35). -/
theorem exec_elementAt_of_ok {i : Instr} {s t : State} {l : Loc} (h : exec i s = .next t) (hcode : t.code = .ok)
    (hw : writesLoc i s t l = false) : t.elementAt l = s.elementAt l := by
  rcases exec_cases i s with ⟨-, he⟩ | ⟨hlegal, u, hrun, he⟩ | ⟨-, k, -, he⟩
  · obtain rfl := Host.Outcome.next.inj (he.symm.trans h)
    cases hcode
  · obtain rfl := Host.Outcome.next.inj (he.symm.trans h)
    exact (u.elementAt_finish _ (ne_status_of_writesLoc hw)).trans (runOf_elementAt hlegal hrun hw)
  · obtain rfl := Host.Outcome.next.inj (he.symm.trans h)
    exact absurd hcode k.code_ne_ok

/-- Any other code changes nothing beside STATUS and the failure range (40_command_execution.md R130). -/
theorem exec_elementAt_of_ne_ok {i : Instr} {s t : State} {l : Loc} (h : exec i s = .next t) (hcode : t.code ≠ .ok)
    (hf : spoilsLoc i s l = false) : t.elementAt l = s.elementAt l := by
  have hl := ne_status_of_spoilsLoc hf
  rcases exec_cases i s with ⟨-, he⟩ | ⟨-, u, -, he⟩ | ⟨-, k, -, he⟩
  · obtain rfl := Host.Outcome.next.inj (he.symm.trans h)
    exact s.elementAt_finish _ hl
  · obtain rfl := Host.Outcome.next.inj (he.symm.trans h)
    exact absurd rfl hcode
  · obtain rfl := Host.Outcome.next.inj (he.symm.trans h)
    exact (State.elementAt_finish _ _ hl).trans (State.elementAt_spoil hf)

/-- An issue is seen in STATUS only: CMD reads 0 in any phase (10_state.md R24). -/
theorem State.elementAt_issue (s : State) (c : Word) {l : Loc} (h : l ≠ .reg .status) :
    (s.issue c).elementAt l = s.elementAt l := by
  cases l with
  | reg r =>
    cases r with
    | status => exact absurd rfl h
    | _ => rfl
  | _ => rfl

/-- Settles O19: an illegal word or illegal operands write the code alone, a success keeps what lies outside the `w` cells, a
failure what lies outside its range, and an issue before it is seen in STATUS only. -/
theorem commandChangesOnlyItsOutputs : Obligations.CommandChangesOnlyItsOutputs := by
  intro c s
  cases hd : decode c with
  | none =>
    have hc : complete (s.issue c) = .next ((s.issue c).finish .illegalCommand) := complete_illegal hd
    exact ⟨_, hc, hc, rfl, rfl, rfl, rfl, fun _ => rfl, nofun, nofun⟩
  | some i =>
    obtain ⟨t, ht⟩ := complete_next (s.issue c)
    have he : exec i (s.issue c) = .next t := (complete_of_decode hd).symm.trans ht
    obtain ⟨hphase, hagenda, hanswers, hepoch⟩ := exec_idle he
    refine ⟨t, ht, ht, hphase, hagenda, hanswers, hepoch, fun hcode => ?_, ?_, ?_⟩
    · obtain ⟨-, rfl⟩ := exec_code_illegalCommand he hcode
      rfl
    · rintro _ ⟨⟩ hcode l hw
      exact (exec_elementAt_of_ok he hcode hw).trans (s.elementAt_issue c (ne_status_of_writesLoc hw))
    · rintro _ ⟨⟩ hcode - l hf
      exact (exec_elementAt_of_ne_ok he hcode hf).trans (s.elementAt_issue c (ne_status_of_spoilsLoc hf))

/-! ### Code 5 -/

/-- Settles O23: `finish` with code 5 is all that illegal operands do, and with legal ones only 0 and the codes of the four
error kinds are answered. -/
theorem illegalOperandsCompleteWithCodeFive : Obligations.IllegalOperandsCompleteWithCodeFive := by
  intro s
  refine ⟨fun i h => ⟨s.cmdl, exec_of_illegalOperands h⟩, fun i t h he hcode => ?_, ?_, ?_, ?_, ?_, ?_⟩
  · exact Bool.eq_false_iff.mp (exec_code_illegalCommand he hcode).1 h
  all_goals simp [operandsLegal, and_assoc, Config.NMAX, Config.WMAX, Config.PKBMAX, Config.EXMAX]

/-- Settles O5: such a word is not one of 1 to 5, the words that decode. -/
theorem illegalWordCompletesWithCodeFive : Obligations.IllegalWordCompletesWithCodeFive := by
  intro s h
  have hrange : ¬ (1 ≤ s.cmdl.toNat ∧ s.cmdl.toNat ≤ 5) := by omega
  have hdecode : decode s.cmdl = none := Option.not_isSome_iff_eq_none.mp (mt (decode_isSome_iff s.cmdl).mp hrange)
  exact ⟨⟨s.cmdl, complete_illegal hdecode⟩, rfl⟩

end Sys2Proof.Machine
end

section
/-! A completion depends on the `r` cells of its command only (10_state.md R35, 40_command_execution.md R127). -/

namespace Sys2Proof.Machine

/-! ### `unpack` reads the needed bits only -/

theorem natOfBits_congr {f g : Nat → Bool} {n : Nat} (h : ∀ k < n, f k = g k) : natOfBits f n = natOfBits g n := by
  induction n with
  | zero => rfl
  | succ n ih => rw [natOfBits, natOfBits, ih fun k hk => h k (by omega), h n (by omega)]

/-- An element depends on its own stream bits (43_bitunpack.md R189). -/
theorem fieldAt_congr {p q : List Byte} {w c i : Nat} (hi : i < c) (h : ∀ n < c * w, byteBit p n = byteBit q n) :
    fieldAt p w i = fieldAt q w i := by
  have hend : i * w + w ≤ c * w := by
    calc i * w + w = (i + 1) * w := (Nat.succ_mul i w).symm
      _ ≤ c * w := Nat.mul_le_mul_right w hi
  rw [fieldAt, fieldAt, natOfBits_congr fun k hk => h (i * w + k) (by omega)]

/-- Buffers of one length that agree on the needed bits unpack alike; a buffer that is too short is not read at all
(43_bitunpack.md R182, R183). -/
theorem unpack_congr {p q : List Byte} {w c : Nat} (hlen : p.length = q.length)
    (h : packedLength c w ≤ p.length → ∀ n < c * w, byteBit p n = byteBit q n) : unpack p w c = unpack q w c := by
  rcases Nat.lt_or_ge p.length (packedLength c w) with hlt | hle
  · rw [unpack_of_lt hlt, unpack_of_lt (hlen ▸ hlt)]
  · rw [unpack_of_le hle, unpack_of_le (hlen ▸ hle)]
    exact congrArg Except.ok (List.map_congr_left fun i hi => fieldAt_congr (List.mem_range.mp hi) (h hle))

/-! ### Operands of two states that agree on the inputs -/

section
variable {i : Instr} {s t : State}

theorem AgreeOnInputs.regValue_eq {r : Reg} (h : AgreeOnInputs i s t) (hr : readsLoc i s (.reg r) = true) :
    t.regValue r = s.regValue r := (Datum.word.inj (h (.reg r) hr)).symm

/-- Every command reads COUNT. -/
theorem AgreeOnInputs.count_eq (h : AgreeOnInputs i s t) : t.count = s.count :=
  h.regValue_eq (r := .count) (by cases i <;> rfl)

/-- The registers whose legality is checked are read (40_command_execution.md R125). -/
theorem AgreeOnInputs.operandsLegal_eq (h : AgreeOnInputs i s t) : operandsLegal i t = operandsLegal i s := by
  have hcount := h.count_eq
  cases i with
  | selw => simp only [operandsLegal, hcount]
  | pack =>
    have hwidth : t.width = s.width := h.regValue_eq (r := .width) rfl
    simp only [operandsLegal, hcount, hwidth]
  | unpk =>
    have hwidth : t.width = s.width := h.regValue_eq (r := .width) rfl
    have hplen : t.plen = s.plen := h.regValue_eq (r := .plen) rfl
    simp only [operandsLegal, hcount, hwidth, hplen]
  | penc => simp only [operandsLegal, hcount]
  | pdec =>
    have hwidth : t.width = s.width := h.regValue_eq (r := .width) rfl
    have hplen : t.plen = s.plen := h.regValue_eq (r := .plen) rfl
    have hexcnt : t.excnt = s.excnt := h.regValue_eq (r := .excnt) rfl
    simp only [operandsLegal, hcount, hwidth, hplen, hexcnt]

/-- SELW, PACK and PENC read the block operand. -/
theorem AgreeOnInputs.block_eq (h : AgreeOnInputs i s t) (hcount : s.count.toNat ≤ Config.NMAX)
    (hread : ∀ k, readsLoc i s (.blk k) = decide (k.val < s.count.toNat)) : t.block = s.block := by
  rw [State.block, State.block, h.count_eq]
  refine List.map_congr_left fun k hk => ?_
  have hk : k < s.count.toNat := List.mem_range.mp hk
  exact (Datum.word.inj (h (.blk ⟨k, by omega⟩) ((hread _).trans (decide_eq_true hk)))).symm

/-- PDEC reads all that UNPK reads. -/
theorem AgreeOnInputs.unpk_of_pdec (h : AgreeOnInputs .pdec s t) : AgreeOnInputs .unpk s t := by
  intro l hl
  refine h l ?_
  cases l with
  | reg r => cases r <;> trivial
  | pkb j => exact hl
  | _ => cases hl

/-- UNPK's inputs decide what `unpack` answers, though the bytes from the need on may differ (43_bitunpack.md R183). -/
theorem AgreeOnInputs.unpack_eq (h : AgreeOnInputs .unpk s t) (hplen : s.plen.toNat ≤ Config.PKBMAX) :
    unpack t.packed t.bitWidth t.count.toNat = unpack s.packed s.bitWidth s.count.toNat := by
  have hwidth : t.bitWidth = s.bitWidth := congrArg BitVec.toNat (h.regValue_eq (r := .width) rfl)
  have hlen : t.plen = s.plen := h.regValue_eq (r := .plen) rfl
  rw [hwidth, h.count_eq]
  refine unpack_congr (by simp [hlen]) fun hneed n hn => ?_
  rw [State.packed_length, hlen] at hneed
  have hbits := (packedLength_bounds s.count.toNat s.bitWidth).1
  have hj : n / 8 < s.need := Nat.div_lt_of_lt_mul (hn.trans_le hbits)
  have hbyte : t.byteAt (n / 8) = s.byteAt (n / 8) :=
    (Datum.byte.inj (h (.pkb ⟨n / 8, hj.trans_le (hneed.trans hplen)⟩) (decide_eq_true hj))).symm
  rw [byteBit_packedOperand (by rw [hlen]; omega), byteBit_packedOperand (by omega), hbyte]

/-- PDEC reads the exception-list operand. -/
theorem AgreeOnInputs.exceptions_eq (h : AgreeOnInputs .pdec s t) (hexcnt : s.excnt.toNat ≤ Config.EXMAX) :
    t.exceptions = s.exceptions := by
  have hlen : t.excnt = s.excnt := h.regValue_eq (r := .excnt) rfl
  rw [State.exceptions, State.exceptions, hlen]
  refine List.map_congr_left fun k hk => ?_
  have hk : k < s.excnt.toNat := List.mem_range.mp hk
  have hpos : s.posAt k = t.posAt k := Datum.word.inj (h (.exp ⟨k, by omega⟩) (decide_eq_true hk))
  have hval : s.valAt k = t.valAt k := Datum.word.inj (h (.exv ⟨k, by omega⟩) (decide_eq_true hk))
  rw [hpos, hval]

theorem AgreeOnInputs.decodeBlock_eq (h : AgreeOnInputs .pdec s t) (hplen : s.plen.toNat ≤ Config.PKBMAX)
    (hexcnt : s.excnt.toNat ≤ Config.EXMAX) :
    decodeBlock t.encoded t.count.toNat = decodeBlock s.encoded s.count.toNat := by
  have hbase : unpack t.encoded.packed t.encoded.baseWidth t.count.toNat =
      unpack s.encoded.packed s.encoded.baseWidth s.count.toNat := h.unpk_of_pdec.unpack_eq hplen
  have hentries : t.encoded.exceptions = s.encoded.exceptions := h.exceptions_eq hexcnt
  rw [decodeBlock, decodeBlock, hbase, hentries, h.count_eq]

end

/-! ### The same outputs written to two states -/

/-- Two states agree on what command `i` wrote when it ran from `s` to the first of them, STATUS apart. -/
def AgreeOnOutputs (i : Instr) (s s' t' : State) : Prop :=
  ∀ l : Loc, writesLoc i s s' l = true → l ≠ .reg .status → t'.elementAt l = s'.elementAt l

/-- One value of `WIDTH` written to two states is all that SELW writes. -/
theorem agreeOnOutputs_setWidth (s t : State) (w : Nat) : AgreeOnOutputs .selw s (s.setWidth w) (t.setWidth w) := by
  intro l hw hl
  cases l with
  | reg r =>
    cases r with
    | width => rfl
    | status => exact absurd rfl hl
    | _ => cases hw
  | _ => cases hw

/-- A written length that its register holds is no more than the length itself. -/
theorem lt_length_of_lt_register {k n : Nat} (h : k < (BitVec.ofNat 32 n).toNat) : k < n :=
  h.trans_le (by rw [BitVec.toNat_ofNat]; exact Nat.mod_le n _)

theorem agreeOnOutputs_writePacked (s t : State) (q : List Byte) :
    AgreeOnOutputs .pack s (s.writePacked q) (t.writePacked q) := by
  intro l hw hl
  cases l with
  | reg r =>
    cases r with
    | plen => rfl
    | status => exact absurd rfl hl
    | _ => cases hw
  | pkb j =>
    have hj : j.val < q.length := lt_length_of_lt_register (of_decide_eq_true hw)
    refine congrArg Datum.byte ?_
    rw [State.byteAt_writePacked, State.byteAt_writePacked, dif_pos hj, dif_pos hj]
  | _ => cases hw

theorem agreeOnOutputs_writeEncoded (s t : State) (e : EncodedBlock) :
    AgreeOnOutputs .penc s (s.writeEncoded e) (t.writeEncoded e) := by
  intro l hw hl
  cases l with
  | reg r =>
    cases r with
    | width => rfl
    | plen => rfl
    | excnt => rfl
    | status => exact absurd rfl hl
    | _ => cases hw
  | blk k => cases hw
  | pkb j =>
    have hj : j.val < e.packed.length := lt_length_of_lt_register (of_decide_eq_true hw)
    refine congrArg Datum.byte ?_
    rw [State.byteAt_writeEncoded, State.byteAt_writeEncoded, dif_pos hj, dif_pos hj]
  | exp k =>
    have hk : k.val < e.exceptions.length := lt_length_of_lt_register (of_decide_eq_true hw)
    refine congrArg Datum.word ?_
    rw [State.posAt_writeEncoded, State.posAt_writeEncoded, dif_pos hk, dif_pos hk]
  | exv k =>
    have hk : k.val < e.exceptions.length := lt_length_of_lt_register (of_decide_eq_true hw)
    refine congrArg Datum.word ?_
    rw [State.valAt_writeEncoded, State.valAt_writeEncoded, dif_pos hk, dif_pos hk]

/-- UNPK and PDEC write the block operand. -/
theorem agreeOnOutputs_writeBlock {i : Instr} (hi : i = .unpk ∨ i = .pdec) {s : State} (t : State) {b : List Word}
    (hb : b.length = s.count.toNat) : AgreeOnOutputs i s (s.writeBlock b) (t.writeBlock b) := by
  intro l hw hl
  cases l with
  | reg r =>
    cases r with
    | status => exact absurd rfl hl
    | _ => rcases hi with rfl | rfl <;> cases hw
  | blk k =>
    have hk : k.val < b.length := by
      rcases hi with rfl | rfl <;> exact hb ▸ of_decide_eq_true hw
    refine congrArg Datum.word ?_
    rw [State.laneAt_writeBlock, State.laneAt_writeBlock, dif_pos hk, dif_pos hk]
  | _ => rcases hi with rfl | rfl <;> cases hw

/-! ### The result of a command -/

/-- Two runs of command `i`, the first from `s`, fail with the same error kind or succeed with the same outputs. -/
def SameResult (i : Instr) (s : State) (x y : Except ErrorKind State) : Prop :=
  (∃ k, x = .error k ∧ y = .error k) ∨ ∃ s' t', x = .ok s' ∧ y = .ok t' ∧ AgreeOnOutputs i s s' t'

/-- One answer of the function layer written to two states. -/
theorem sameResult_map {α : Type} {i : Instr} {s : State} {f g : α → State} {x : Except ErrorKind α}
    (h : ∀ a, x = .ok a → AgreeOnOutputs i s (f a) (g a)) : SameResult i s (x.map f) (x.map g) := by
  cases x with
  | error k => exact .inl ⟨k, rfl, rfl⟩
  | ok a => exact .inr ⟨f a, g a, rfl, rfl, h a rfl⟩

/-- `run` sees the `r` cells only: its function gets the same operands, and the answer is written to both states. -/
theorem runOf_sameResult {i : Instr} {s t : State} (h : AgreeOnInputs i s t) (hlegal : operandsLegal i s = true) :
    SameResult i s (runOf i s) (runOf i t) := by
  cases i with
  | selw =>
    have hblock : t.block = s.block := h.block_eq (of_decide_eq_true hlegal) fun _ => rfl
    simp only [runOf, runSelw, hblock]
    exact .inr ⟨_, _, rfl, rfl, agreeOnOutputs_setWidth s t _⟩
  | pack =>
    obtain ⟨hcount, -⟩ : s.count.toNat ≤ Config.NMAX ∧ s.width.toNat ≤ Config.WMAX := by
      simpa [operandsLegal] using hlegal
    have hwidth : t.bitWidth = s.bitWidth := congrArg BitVec.toNat (h.regValue_eq (r := .width) rfl)
    simp only [runOf, runPack, h.block_eq hcount fun _ => rfl, hwidth]
    exact sameResult_map fun q _ => agreeOnOutputs_writePacked s t q
  | unpk =>
    have hplen : s.plen.toNat ≤ Config.PKBMAX := of_decide_eq_true (Bool.and_eq_true_iff.mp hlegal).2
    simp only [runOf, runUnpk, h.unpack_eq hplen]
    refine sameResult_map fun b hb => agreeOnOutputs_writeBlock (.inl rfl) t ?_
    obtain ⟨-, rfl⟩ := unpack_ok_cases hb
    simp
  | penc =>
    have hblock : t.block = s.block := h.block_eq (of_decide_eq_true hlegal) fun _ => rfl
    have hbudget : t.exceptionBudget = s.exceptionBudget := congrArg BitVec.toInt (h.regValue_eq (r := .budget) rfl)
    simp only [runOf, runPenc, hblock, hbudget]
    exact sameResult_map fun e _ => agreeOnOutputs_writeEncoded s t e
  | pdec =>
    obtain ⟨⟨-, hplen⟩, hexcnt⟩ : (_ ∧ s.plen.toNat ≤ Config.PKBMAX) ∧ s.excnt.toNat ≤ Config.EXMAX := by
      simpa only [operandsLegal, Bool.and_eq_true, decide_eq_true_eq] using hlegal
    simp only [runOf, runPdec, h.decodeBlock_eq hplen hexcnt]
    exact sameResult_map fun b hb => agreeOnOutputs_writeBlock (.inr rfl) t (decodeBlock_length hb)

/-- Success with the same outputs stays so when the completion has written STATUS. -/
theorem AgreeOnOutputs.finish {i : Instr} {s s' t' : State} (h : AgreeOnOutputs i s s' t') (c : ResultCode) {l : Loc}
    (hw : writesLoc i s (s'.finish c) l = true) : (t'.finish c).elementAt l = (s'.finish c).elementAt l := by
  by_cases hl : l = .reg .status
  · subst hl; rfl
  · rw [State.elementAt_finish _ _ hl, State.elementAt_finish _ _ hl]
    exact h l hw hl

/-- A command's code and, on success, its outputs depend on its `r` cells only (40_command_execution.md R127). -/
theorem exec_of_agreeOnInputs {i : Instr} {s t : State} (h : AgreeOnInputs i s t) :
    ∃ s' t', exec i s = .next s' ∧ exec i t = .next t' ∧ t'.code = s'.code ∧
      (s'.code = .ok → ∀ l, writesLoc i s s' l = true → t'.elementAt l = s'.elementAt l) := by
  cases hs : operandsLegal i s with
  | false =>
    have ht : operandsLegal i t = false := h.operandsLegal_eq.trans hs
    exact ⟨_, _, exec_of_illegalOperands hs, exec_of_illegalOperands ht, rfl, nofun⟩
  | true =>
    have ht : operandsLegal i t = true := h.operandsLegal_eq.trans hs
    rcases runOf_sameResult h hs with ⟨k, hrun, hrun'⟩ | ⟨s', t', hrun, hrun', hout⟩
    · exact ⟨_, _, exec_of_run_error hs hrun, exec_of_run_error ht hrun', rfl, fun hk => absurd hk k.code_ne_ok⟩
    · exact ⟨_, _, exec_of_run_ok hs hrun, exec_of_run_ok ht hrun', rfl, fun _ _ hw => hout.finish .ok hw⟩

/-- Settles O21: the same CMDL decodes to the same command, whose result depends on its `r` cells only. -/
theorem resultDependsOnlyOnInputs : Obligations.ResultDependsOnlyOnInputs := by
  intro s t hcmdl hagree
  cases hd : decode s.cmdl with
  | none => exact ⟨_, _, complete_illegal hd, complete_illegal (hcmdl ▸ hd), rfl, nofun⟩
  | some i =>
    obtain ⟨s', t', hs, ht, hcode, hout⟩ := exec_of_agreeOnInputs (hagree i hd)
    refine ⟨s', t', (complete_of_decode hd).trans hs, (complete_of_decode (hcmdl ▸ hd)).trans ht, hcode, ?_⟩
    rintro hok _ ⟨⟩
    exact hout hok

end Sys2Proof.Machine
end

section
/-! The laws of `selectWidth` (41_width_select.md section 2). One fact carries them: a width is at least `selectWidth b`
exactly when every element of `b` fits it. -/

namespace Sys2Proof.Machine

/-! ### The least width that fits every element -/

theorem blockMax_lt_two_pow_iff (b : List Word) (w : Nat) : blockMax b < 2 ^ w ↔ ∀ v ∈ b, v.toNat < 2 ^ w := by
  induction b with
  | nil => simp [blockMax]
  | cons v b ih => rw [blockMax, max_lt_iff, ih, List.forall_mem_cons]

theorem selectWidth_le_iff (b : List Word) (w : Nat) : selectWidth b ≤ w ↔ ∀ v ∈ b, v.toNat < 2 ^ w := by
  rw [selectWidth, bitlen_le_iff, blockMax_lt_two_pow_iff]

theorem lt_selectWidth_iff (b : List Word) (w : Nat) : w < selectWidth b ↔ ∃ v ∈ b, 2 ^ w ≤ v.toNat := by
  rw [← not_le, selectWidth_le_iff]
  simp only [not_forall, not_lt, exists_prop]

theorem selectWidth_le_32 (b : List Word) : selectWidth b ≤ 32 :=
  (selectWidth_le_iff b 32).mpr fun v _ => v.isLt

/-- A number that is at most `w` exactly when every element fits `w` bits is `selectWidth`. -/
theorem selectWidth_eq_of_le_iff {b : List Word} {n : Nat} (h : ∀ w, n ≤ w ↔ ∀ v ∈ b, v.toNat < 2 ^ w) :
    selectWidth b = n :=
  eq_of_forall_ge_iff fun w => (selectWidth_le_iff b w).trans (h w).symm

/-! ### The three forms -/

theorem blockMax_eq_foldr (b : List Word) : blockMax b = b.foldr (fun v m => max v.toNat m) 0 := by
  induction b with
  | nil => rfl
  | cons v b ih => rw [blockMax, ih, List.foldr_cons]

theorem foldr_max_bitlen_le_iff (b : List Word) (w : Nat) :
    b.foldr (fun v m => max (bitlen v.toNat) m) 0 ≤ w ↔ ∀ v ∈ b, v.toNat < 2 ^ w := by
  induction b with
  | nil => simp
  | cons v b ih => rw [List.foldr_cons, max_le_iff, bitlen_le_iff, ih, List.forall_mem_cons]

/-- An OR fits `w` bits exactly when both sides do: it has no bit that neither has, and is no smaller than either. -/
theorem or_lt_two_pow_iff (m n w : Nat) : m ||| n < 2 ^ w ↔ m < 2 ^ w ∧ n < 2 ^ w :=
  ⟨fun h => ⟨Nat.left_le_or.trans_lt h, Nat.right_le_or.trans_lt h⟩, fun ⟨hm, hn⟩ => Nat.or_lt_two_pow hm hn⟩

theorem bitlen_foldr_or_le_iff (b : List Word) (w : Nat) :
    bitlen (b.foldr (fun v r => v ||| r) 0).toNat ≤ w ↔ ∀ v ∈ b, v.toNat < 2 ^ w := by
  rw [bitlen_le_iff]
  induction b with
  | nil => simp
  | cons v b ih => rw [List.foldr_cons, BitVec.toNat_or, or_lt_two_pow_iff, ih, List.forall_mem_cons]

/-- Settles O36: each form is at most `w` exactly when every element fits `w` bits. -/
theorem selectWidthThreeForms : Obligations.SelectWidthThreeForms := fun b =>
  ⟨congrArg bitlen (blockMax_eq_foldr b), selectWidth_eq_of_le_iff (foldr_max_bitlen_le_iff b),
    selectWidth_eq_of_le_iff (bitlen_foldr_or_le_iff b)⟩

/-! ### The least packable width -/

/-- A field of a packing is the element packed there (20_memory.md R65, 42_bitpack.md R167). -/
theorem fieldAt_of_pack {b : List Word} {w i : Nat} {q : List Byte} (h : pack b w = .ok q) (hi : i < b.length) :
    fieldAt q w i = b[i] := by
  obtain ⟨hfits, rfl⟩ := pack_ok_cases h
  apply BitVec.eq_of_getLsbD_eq
  intro k hk
  rw [getLsbD_fieldAt _ _ _ _ hk]
  by_cases hkw : k < w
  · have hend : (i + 1) * w ≤ b.length * w := Nat.mul_le_mul_right w hi
    have hlen := (packedLength_bounds b.length w).1
    have hin : i * w + k < 8 * packedLength b.length w := by
      rw [Nat.succ_mul] at hend
      omega
    rw [byteBit_packed _ _ _ _ hin, blockBit_element _ _ _ _ hi hkw, List.getD_eq_getElem _ _ hi, decide_eq_true hkw,
      Bool.true_and]
  · have hv : b[i].toNat < 2 ^ k :=
      (hfits _ (List.getElem_mem hi)).trans_le (Nat.pow_le_pow_right Nat.two_pos (Nat.le_of_not_lt hkw))
    rw [decide_eq_false hkw, Bool.false_and]
    exact (Nat.testBit_lt_two_pow hv).symm

/-- Unpacking a packing gives the block back (42_bitpack.md R167). -/
theorem unpack_of_pack {b : List Word} {w : Nat} {q : List Byte} (h : pack b w = .ok q) :
    unpack q w b.length = .ok b := by
  rw [unpack_of_le (pack_length h).ge]
  congr 1
  apply List.ext_getElem
  · simp
  · intro i _ hi
    rw [List.getElem_map, List.getElem_range, fieldAt_of_pack h hi]

theorem exists_pack_ok_iff (b : List Word) (w : Nat) : (∃ q, pack b w = .ok q) ↔ selectWidth b ≤ w := by
  rw [selectWidth_le_iff]
  exact ⟨fun ⟨_, h⟩ => (pack_ok_cases h).1, fun h => ⟨_, pack_of_fits h⟩⟩

/-- Settles O37: `pack` tests that every element fits, which is what `selectWidth` bounds. -/
theorem selectWidthIsLeastPackableWidth : Obligations.SelectWidthIsLeastPackableWidth := by
  intro b w _
  refine ⟨exists_pack_ok_iff b w, fun h => ?_, fun h => pack_of_exceeds ((lt_selectWidth_iff b w).mp h),
    selectWidth_le_32 b⟩
  obtain ⟨q, hq⟩ := (exists_pack_ok_iff b w).mpr h
  exact ⟨q, hq, unpack_of_pack hq⟩

/-! ### The consequences -/

theorem selectWidth_eq_zero_iff (b : List Word) : selectWidth b = 0 ↔ ∀ v ∈ b, v = 0 := by
  rw [← Nat.le_zero, selectWidth_le_iff]
  refine forall₂_congr fun v _ => ?_
  rw [Nat.pow_zero, Nat.lt_one_iff, BitVec.toNat_eq]
  rfl

theorem selectWidth_append (b c : List Word) : selectWidth (b ++ c) = max (selectWidth b) (selectWidth c) := by
  refine selectWidth_eq_of_le_iff fun w => ?_
  rw [max_le_iff, selectWidth_le_iff, selectWidth_le_iff, List.forall_mem_append]

theorem selectWidth_perm {b c : List Word} (h : b.Perm c) : selectWidth b = selectWidth c := by
  refine selectWidth_eq_of_le_iff fun w => ?_
  rw [selectWidth_le_iff]
  exact forall_congr' fun v => by rw [h.mem_iff]

theorem excess_eq_zero_iff (b : List Word) (w : Nat) : excess b w = 0 ↔ selectWidth b ≤ w := by
  rw [excess, List.countP_eq_zero, selectWidth_le_iff]
  exact forall₂_congr fun v _ => by rw [Bool.not_eq_true, exceeds_eq_false_iff]

/-- With no exception allowed the least width that fits every element is chosen (44_pfor_codec.md R208 (b)). -/
theorem chooseWidth_zero (b : List Word) : chooseWidth b 0 = some (selectWidth b) := by
  rw [chooseWidth_eq_some_iff]
  refine ⟨selectWidth_le_32 b, ?_, fun w hw => ?_⟩
  · simp [(excess_eq_zero_iff b _).mpr le_rfl]
  · have hne : excess b w ≠ 0 := fun h => hw.not_ge ((excess_eq_zero_iff b w).mp h)
    omega

theorem encodeBlock_zero_baseWidth (b : List Word) :
    ∃ e, encodeBlock b 0 = .ok e ∧ e.baseWidth = selectWidth b := by
  obtain ⟨hneg, -⟩ | ⟨w, hw, -, he⟩ := encodeBlock_cases b 0
  · exact absurd hneg (lt_irrefl 0)
  · exact ⟨_, he, Option.some.inj (hw.symm.trans (chooseWidth_zero b))⟩

/-- Settles O38: the four consequences of R148, each read off the elements that fit. -/
theorem selectWidthConsequences : Obligations.SelectWidthConsequences :=
  ⟨selectWidth_eq_zero_iff, selectWidth_append, fun _ _ => selectWidth_perm, excess_eq_zero_iff,
    encodeBlock_zero_baseWidth⟩

end Sys2Proof.Machine
end

section
/-! The packer's round trip (42_bitpack.md R167): as functions, and in the core from PACK's outputs to UNPK's. -/

namespace Sys2Proof.Machine

/-! ### Commands that complete with code 0 -/

/-- Only a successful `run` gives a command code 0 (40_command_execution.md R123). -/
theorem exec_code_ok {i : Instr} {s t : State} (h : exec i s = .next t) (hcode : t.code = .ok) :
    operandsLegal i s = true ∧ ∃ u, runOf i s = .ok u ∧ t = u.finish .ok := by
  rcases exec_cases i s with ⟨-, he⟩ | ⟨hlegal, u, hrun, he⟩ | ⟨-, k, -, he⟩
  · obtain rfl := Host.Outcome.next.inj (he.symm.trans h)
    cases hcode
  · exact ⟨hlegal, u, hrun, Host.Outcome.next.inj (h.symm.trans he)⟩
  · obtain rfl := Host.Outcome.next.inj (he.symm.trans h)
    exact absurd hcode k.code_ne_ok

/-- UNPK on legal operands writes the block that `unpack` answers (43_bitunpack.md R180). -/
theorem exec_unpk_of_unpack {s : State} {b : List Word} (hlegal : operandsLegal .unpk s = true)
    (h : unpack s.packed s.bitWidth s.count.toNat = .ok b) : exec .unpk s = .next ((s.writeBlock b).finish .ok) := by
  refine exec_of_run_ok hlegal ?_
  rw [runOf, runUnpk, h]
  rfl

/-! ### The packed-buffer and block operands after a write -/

theorem State.packed_congr {s t : State} (hplen : s.plen = t.plen) (hbytes : ∀ j, s.byteAt j = t.byteAt j) :
    s.packed = t.packed := by
  rw [State.packed, State.packed, hplen, funext hbytes]

/-- A byte sequence that PKB can hold is the packed-buffer operand once it is written (30_encoding.md R93). -/
theorem State.packed_writePacked (s : State) {q : List Byte} (h : q.length ≤ Config.PKBMAX) :
    (s.writePacked q).packed = q := by
  have hplen : (s.writePacked q).plen.toNat = q.length := Nat.mod_eq_of_lt (h.trans_lt (by decide))
  apply List.ext_getElem
  · rw [State.packed_length, hplen]
  · intro j _ hj
    simp only [State.packed, List.getElem_map, List.getElem_range]
    rw [State.byteAt_writePacked, dif_pos hj]

/-- Writing the block operand of one state to another copies the lanes it holds. -/
theorem State.laneAt_writeBlock_block (s u : State) {i : Nat} (hi : i < s.count.toNat) :
    (u.writeBlock s.block).laneAt i = s.laneAt i := by
  rw [State.laneAt_writeBlock, dif_pos (s.block_length.symm ▸ hi)]
  simp [State.block]

/-! ### The round trip -/

/-- UNPK's operands are legal where PACK's are and PLEN is a length that PKB can hold (40_command_execution.md R125). -/
theorem operandsLegal_unpk_of_pack {s u : State} (h : operandsLegal .pack s = true) (hwidth : u.width = s.width)
    (hcount : u.count = s.count) (hplen : u.plen.toNat ≤ Config.PKBMAX) : operandsLegal .unpk u = true := by
  simp only [operandsLegal, Bool.and_eq_true] at h ⊢
  rw [hwidth, hcount]
  exact ⟨h, decide_eq_true hplen⟩

/-- What PACK leaves when it completes with code 0: its packed-buffer operand is the packing of the block operand, and
fits PKB (42_bitpack.md R160). -/
theorem exec_pack_code_ok {s t : State} (h : exec .pack s = .next t) (hcode : t.code = .ok) :
    operandsLegal .pack s = true ∧ pack s.block s.bitWidth = .ok t.packed ∧ t.plen.toNat ≤ Config.PKBMAX ∧
      t.width = s.width ∧ t.count = s.count := by
  obtain ⟨hlegal, _, hrun, rfl⟩ := exec_code_ok h hcode
  obtain ⟨q, hq, rfl⟩ := runPack_ok hrun
  obtain ⟨hcount, hwidth⟩ : s.count.toNat ≤ Config.NMAX ∧ s.width.toNat ≤ Config.WMAX := by
    simpa [operandsLegal] using hlegal
  have hlen : q.length ≤ Config.PKBMAX := by
    rw [pack_length hq, State.block_length]
    exact packedLength_le hcount hwidth
  have hpacked : ((s.writePacked q).finish .ok).packed = q := s.packed_writePacked hlen
  refine ⟨hlegal, hpacked.symm ▸ hq, ?_, rfl, rfl⟩
  rwa [← State.packed_length, hpacked]

/-- UNPK reads back the block that PACK read. -/
theorem exec_unpk_of_exec_pack {s t u : State} (h : exec .pack s = .next t) (hcode : t.code = .ok)
    (hwidth : u.width = t.width) (hcount : u.count = t.count) (hplen : u.plen = t.plen)
    (hbytes : ∀ j, u.byteAt j = t.byteAt j) : exec .unpk u = .next ((u.writeBlock s.block).finish .ok) := by
  obtain ⟨hlegal, hpack, hfits, htwidth, htcount⟩ := exec_pack_code_ok h hcode
  refine exec_unpk_of_unpack
    (operandsLegal_unpk_of_pack hlegal (hwidth.trans htwidth) (hcount.trans htcount) (hplen ▸ hfits)) ?_
  have hround := unpack_of_pack hpack
  rwa [State.block_length, ← State.packed_congr hplen hbytes, State.bitWidth, ← htwidth, ← hwidth, ← htcount,
    ← hcount] at hround

/-- Settles O41: a field of a packing is the element packed there, and PACK leaves UNPK the packing as its operand. -/
theorem packThenUnpackGivesTheBlockBack : Obligations.PackThenUnpackGivesTheBlockBack := by
  refine ⟨fun b w _ hfits => ⟨_, pack_of_fits hfits, unpack_of_pack (pack_of_fits hfits)⟩, ?_⟩
  intro s t u h hcode hwidth hcount hplen hbytes
  exact ⟨_, exec_unpk_of_exec_pack h hcode hwidth hcount hplen hbytes, rfl,
    fun _ hi => s.laneAt_writeBlock_block u hi⟩

end Sys2Proof.Machine
end

section
/-! The laws of `unpack` (43_bitunpack.md section 2): what it reads of the buffer, what its elements are, and the one
corruption it detects. -/

namespace Sys2Proof.Machine

/-! ### The bits that are read -/

/-- Settles O45: both buffers are long enough, and an element depends on its own stream bits. -/
theorem unpackReadsOnlyNeededBits : Obligations.UnpackReadsOnlyNeededBits := by
  intro p q w c hp hq h
  rw [unpack_of_le hp, unpack_of_le hq]
  exact congrArg Except.ok (List.map_congr_left fun i hi => fieldAt_congr (List.mem_range.mp hi) h)

/-! ### The elements -/

/-- The bits from `m` on are the digit above the low `m` bits. -/
theorem natOfBits_add (f : Nat → Bool) (m n : Nat) :
    natOfBits f (m + n) = natOfBits f m + 2 ^ m * natOfBits (fun k => f (m + k)) n := by
  induction n with
  | zero => rfl
  | succ n ih =>
    rw [← Nat.add_assoc, natOfBits, natOfBits, ih]
    split
    · rw [Nat.pow_add]; ring
    · rfl

/-- Eight stream bits from a byte boundary on are that byte (20_memory.md R65). -/
theorem natOfBits_byteBit (q : List Byte) (j : Nat) :
    natOfBits (fun k => byteBit q (8 * j + k)) 8 = (q.getD j 0).toNat := by
  apply Nat.eq_of_testBit_eq
  intro k
  rw [testBit_natOfBits]
  by_cases hk : k < 8
  · have hbyte : (8 * j + k) / 8 = j := by omega
    have hbit : (8 * j + k) % 8 = k := by omega
    rw [decide_eq_true hk, Bool.true_and, byteBit, hbyte, hbit]
    rfl
  · have hlt : (q.getD j 0).toNat < 2 ^ k :=
      (q.getD j 0).isLt.trans_le (Nat.pow_le_pow_right Nat.two_pos (Nat.le_of_not_lt hk))
    rw [decide_eq_false hk, Bool.false_and, Nat.testBit_lt_two_pow hlt]

/-- Stream bits read from a byte boundary on are bytes, least significant first (20_memory.md R66). -/
theorem natOfBits_byteBit_succ (q : List Byte) (j n : Nat) :
    natOfBits (fun k => byteBit q (8 * j + k)) (8 + n) =
      (q.getD j 0).toNat + 256 * natOfBits (fun k => byteBit q (8 * (j + 1) + k)) n := by
  rw [natOfBits_add, natOfBits_byteBit]
  simp only [Nat.mul_succ, Nat.add_assoc, Nat.reducePow]

/-- A field of at most 32 bits is the natural of its stream bits (43_bitunpack.md R181). -/
theorem toNat_fieldAt (q : List Byte) {w : Nat} (i : Nat) (h : w ≤ 32) :
    (fieldAt q w i).toNat = natOfBits (fun k => byteBit q (i * w + k)) w :=
  Nat.mod_eq_of_lt ((natOfBits_lt _ w).trans_le (Nat.pow_le_pow_right Nat.two_pos h))

/-- At the full width an element is four bytes, least significant first (43_bitunpack.md R185). -/
theorem toNat_fieldAt_32 (q : List Byte) (i : Nat) :
    (fieldAt q 32 i).toNat =
      (q.getD (4 * i) 0).toNat + 256 * (q.getD (4 * i + 1) 0).toNat + 65536 * (q.getD (4 * i + 2) 0).toNat
        + 16777216 * (q.getD (4 * i + 3) 0).toNat := by
  have hstart : i * 32 = 8 * (4 * i) := by omega
  have hbytes := natOfBits_byteBit_succ q (4 * i) 24
  rw [natOfBits_byteBit_succ q (4 * i + 1) 16, natOfBits_byteBit_succ q (4 * i + 2) 8,
    natOfBits_byteBit q (4 * i + 3)] at hbytes
  rw [toNat_fieldAt q i le_rfl, hstart, hbytes]
  omega

/-- Width 0 needs no byte and reads no bit (43_bitunpack.md R184). -/
theorem unpack_zero_width (p : List Byte) (c : Nat) : unpack p 0 c = .ok (List.replicate c 0) := by
  have hneed : packedLength c 0 ≤ p.length := (packedLength_eq_zero (.inr rfl)).trans_le (Nat.zero_le _)
  have hzero : fieldAt p 0 = fun _ => 0 := rfl
  rw [unpack_of_le hneed, hzero, List.map_const', List.length_range]

theorem unpack_lt_two_pow {p : List Byte} {w c : Nat} {b : List Word} (h : unpack p w c = .ok b) :
    ∀ v ∈ b, v.toNat < 2 ^ w := by
  obtain ⟨-, rfl⟩ := unpack_ok_cases h
  exact List.forall_mem_map.mpr fun i _ => fieldAt_lt p w i

theorem unpack_getD {p : List Byte} {w c i : Nat} {b : List Word} (h : unpack p w c = .ok b) (hi : i < c) :
    b.getD i 0 = fieldAt p w i := by
  obtain ⟨-, rfl⟩ := unpack_ok_cases h
  simp [hi]

/-- Settles O46: an element is the natural of its stream bits; at width 0 there is none, at width 32 they are four bytes. -/
theorem unpackedElementsAreInRange : Obligations.UnpackedElementsAreInRange :=
  ⟨unpack_zero_width, fun _ _ _ _ => unpack_lt_two_pow,
    fun p _ _ h i hi => (congrArg BitVec.toNat (unpack_getD h hi)).trans (toNat_fieldAt_32 p i)⟩

/-! ### The corruption that is detected -/

/-- A packing has no byte to spare (42_bitpack.md R166, 43_bitunpack.md R186). -/
theorem unpack_dropLast_of_pack {b : List Word} {w : Nat} {q : List Byte} (h : pack b w = .ok q) (hq : 1 ≤ q.length) :
    unpack q.dropLast w b.length = .error .truncatedBuffer := by
  refine unpack_of_lt ?_
  rw [List.length_dropLast, ← pack_length h]
  exact Nat.sub_one_lt_of_le hq le_rfl

/-- UNPK on legal operands whose PLEN is below the need takes the exception `TruncatedBuffer` (43_bitunpack.md R182,
60_exceptions.md R243). -/
theorem exec_unpk_of_plen_lt_need {s : State} (hlegal : operandsLegal .unpk s = true) (h : s.plen.toNat < s.need) :
    exec .unpk s = .next ((s.spoil (failureRange .unpk s)).finish .truncatedBuffer) := by
  refine exec_of_run_error (k := .truncatedBuffer) hlegal ?_
  rw [runOf, runUnpk, unpack_of_lt (s.packed_length.trans_lt h)]
  rfl

/-- After a successful PACK, PLEN is exactly what UNPK needs (42_bitpack.md R160, R166). -/
theorem plen_eq_need_of_exec_pack {s t : State} (h : exec .pack s = .next t) (hcode : t.code = .ok) :
    t.plen.toNat = t.need := by
  obtain ⟨-, hpack, -, hwidth, hcount⟩ := exec_pack_code_ok h hcode
  rw [← State.packed_length, pack_length hpack, State.block_length, State.need, State.bitWidth, State.bitWidth, hwidth,
    hcount]

/-- UNPK with a PLEN short of what PACK wrote completes with code `TruncatedBuffer` (43_bitunpack.md R186). -/
theorem exec_unpk_of_exec_pack_shortened {s t : State} {n : Word} (h : exec .pack s = .next t) (hcode : t.code = .ok)
    (hn : n.toNat < t.plen.toNat) :
    ∃ v, exec .unpk { t with plen := n } = .next v ∧ v.code = .truncatedBuffer := by
  obtain ⟨hlegal, -, hfits, hwidth, hcount⟩ := exec_pack_code_ok h hcode
  have hshort : n.toNat < t.need := hn.trans_eq (plen_eq_need_of_exec_pack h hcode)
  have hunpk : operandsLegal .unpk { t with plen := n } = true :=
    operandsLegal_unpk_of_pack hlegal hwidth hcount (hn.le.trans hfits)
  exact ⟨_, exec_unpk_of_plen_lt_need hunpk hshort, rfl⟩

/-- Settles O47: PACK leaves exactly the needed length, so one byte less is truncated; nothing but the length is tested. -/
theorem shortenedBufferIsTruncated : Obligations.ShortenedBufferIsTruncated := by
  refine ⟨fun _ _ _ => unpack_dropLast_of_pack, fun s t h hcode hplen => ?_, fun _ _ _ hlen => ⟨_, unpack_of_le hlen⟩⟩
  refine exec_unpk_of_exec_pack_shortened h hcode ?_
  bv_omega

end Sys2Proof.Machine
end

section
/-! The laws of `encode` and `decode` (44_pfor_codec.md R202 to R209, R222, R226) as functions: when each fails, and what the width,
the base and the exceptions of an encoded block are. -/

namespace Sys2Proof.Machine

/-! ### What `encode` answers -/

/-- The only error of `encode`, and its cause (44_pfor_codec.md R202). -/
theorem encodeBlock_error_iff (b : List Word) (budget : Int) (k : ErrorKind) :
    encodeBlock b budget = .error k ↔ k = .budgetUnreachable ∧ budget < 0 := by
  rcases encodeBlock_cases b budget with ⟨hneg, he⟩ | ⟨w, -, hpos, he⟩
  · rw [he, Except.error.injEq, eq_comm]
    exact (and_iff_left hneg).symm
  · rw [he]
    exact ⟨nofun, fun ⟨_, hneg⟩ => absurd hneg hpos.not_gt⟩

theorem exists_encodeBlock_ok {b : List Word} {budget : Int} (h : 0 ≤ budget) : ∃ e, encodeBlock b budget = .ok e := by
  rcases encodeBlock_cases b budget with ⟨hneg, -⟩ | ⟨w, -, -, he⟩
  · exact absurd h hneg.not_ge
  · exact ⟨_, he⟩

/-- Settles O48: a width is chosen unless the budget is negative, and the base block at that width always packs. -/
theorem encodeFailsExactlyOnNegativeBudget : Obligations.EncodeFailsExactlyOnNegativeBudget := fun b budget =>
  ⟨((encodeBlock_error_iff b budget _).trans (and_iff_right rfl)).symm, exists_encodeBlock_ok,
    fun k h => ((encodeBlock_error_iff b budget k).mp h).1⟩

/-- What an `Ok` of `encode` says: the chosen width, the base block packed at it, and the outliers (44_pfor_codec.md R207). -/
theorem encodeBlock_ok_cases {b : List Word} {budget : Int} {e : EncodedBlock} (h : encodeBlock b budget = .ok e) :
    chooseWidth b budget = some e.baseWidth ∧ pack (baseBlock b e.baseWidth) e.baseWidth = .ok e.packed ∧
      e.exceptions = outliersFrom e.baseWidth 0 b := by
  rcases encodeBlock_cases b budget with ⟨-, he⟩ | ⟨w, hw, -, he⟩
  · cases he.symm.trans h
  · obtain rfl := Except.ok.inj (he.symm.trans h)
    refine ⟨hw, ?_, rfl⟩
    rw [pack_of_fits (baseBlock_fits b w), baseBlock_length]

/-! ### The chosen width -/

/-- A larger budget never gives a larger width (44_pfor_codec.md R208 (a)). -/
theorem chooseWidth_antitone {b : List Word} {budget budget' : Int} {w w' : Nat} (hle : budget ≤ budget')
    (h : chooseWidth b budget = some w) (h' : chooseWidth b budget' = some w') : w' ≤ w := by
  obtain ⟨-, hmeets, -⟩ := (chooseWidth_eq_some_iff b budget w).mp h
  obtain ⟨-, -, hleast⟩ := (chooseWidth_eq_some_iff b budget' w').mp h'
  by_contra hlt
  exact (hleast w (not_le.mp hlt)).not_ge (hmeets.trans hle)

theorem chooseWidth_eq_some_zero_iff (b : List Word) (budget : Int) :
    chooseWidth b budget = some 0 ↔ (excess b 0 : Int) ≤ budget := by
  simp [chooseWidth_eq_some_iff]

/-! ### The base and the outliers -/

/-- A block that fits the width is its own base (44_pfor_codec.md R204). -/
theorem baseBlock_eq_self {b : List Word} {w : Nat} (h : ∀ v ∈ b, v.toNat < 2 ^ w) : baseBlock b w = b :=
  (List.map_congr_left fun v hv => if_neg (Bool.eq_false_iff.mp ((exceeds_eq_false_iff w v).mpr (h v hv)))).trans
    b.map_id

/-- The exception values are the elements that exceed the width, in order (44_pfor_codec.md R205). -/
theorem map_snd_outliersFrom (w n : Nat) (b : List Word) : (outliersFrom w n b).map Prod.snd = b.filter (exceeds w) := by
  induction b generalizing n with
  | nil => rfl
  | cons v b ih =>
    rw [outliersFrom]
    split
    · next h => rw [List.map_cons, ih, List.filter_cons_of_pos h]
    · next h => rw [ih, List.filter_cons_of_neg h]

/-- No bit holds 0 and nothing else. -/
theorem exceeds_zero_iff (v : Word) : exceeds 0 v = true ↔ v ≠ 0 := by
  rw [exceeds_iff]
  bv_omega

/-- No exception value fits the base width (44_pfor_codec.md R208 (e)). -/
theorem two_pow_le_of_mem_outliersFrom {w n : Nat} {b : List Word} {x : Word × Word} (h : x ∈ outliersFrom w n b) :
    2 ^ w ≤ x.2.toNat := by
  have hmem : x.2 ∈ b.filter (exceeds w) := map_snd_outliersFrom w n b ▸ List.mem_map_of_mem h
  exact (exceeds_iff w x.2).mp (List.mem_filter.mp hmem).2

/-! ### The laws of R208 -/

/-- With no exception allowed the whole block is packed at its least fitting width (44_pfor_codec.md R208 (b)). -/
theorem encodeBlock_budget_zero {b : List Word} {e : EncodedBlock} (h : encodeBlock b 0 = .ok e) :
    e.baseWidth = selectWidth b ∧ e.exceptions = [] ∧ pack b (selectWidth b) = .ok e.packed := by
  obtain ⟨hw, hpack, hexc⟩ := encodeBlock_ok_cases h
  have hwidth : e.baseWidth = selectWidth b := Option.some.inj (hw.symm.trans (chooseWidth_zero b))
  rw [hwidth] at hpack hexc
  refine ⟨hwidth, ?_, ?_⟩
  · rw [← List.length_eq_zero_iff, hexc, outliersFrom_length, excess_eq_zero_iff]
  · rwa [baseBlock_eq_self ((selectWidth_le_iff b _).mp le_rfl)] at hpack

/-- With every non-zero element allowed as an exception nothing is packed (44_pfor_codec.md R208 (c)). -/
theorem encodeBlock_budget_large {b : List Word} {budget : Int} {e : EncodedBlock} (h : encodeBlock b budget = .ok e)
    (hlarge : (excess b 0 : Int) ≤ budget) :
    e.baseWidth = 0 ∧ e.packed = [] ∧ e.exceptions.map Prod.snd = b.filter (fun v => decide (v ≠ 0)) := by
  obtain ⟨hw, hpack, hexc⟩ := encodeBlock_ok_cases h
  have hwidth : e.baseWidth = 0 :=
    Option.some.inj (hw.symm.trans ((chooseWidth_eq_some_zero_iff b budget).mpr hlarge))
  rw [hwidth] at hpack hexc
  refine ⟨hwidth, ?_, ?_⟩
  · rw [← List.length_eq_zero_iff, pack_length hpack, packedLength_eq_zero (.inr rfl)]
  · rw [hexc, map_snd_outliersFrom]
    exact List.filter_congr fun v _ => Bool.eq_iff_iff.mpr ((exceeds_zero_iff v).trans decide_eq_true_iff.symm)

/-- Settles O49: the width is the chosen one, and the exceptions are the elements that exceed it. -/
theorem encodeLaws : Obligations.EncodeLaws := by
  intro b budget e h
  obtain ⟨hw, -, hexc⟩ := encodeBlock_ok_cases h
  obtain ⟨hw32, hmeets, hleast⟩ := (chooseWidth_eq_some_iff b budget e.baseWidth).mp hw
  have hlength : e.exceptions.length = excess b e.baseWidth := hexc ▸ outliersFrom_length e.baseWidth 0 b
  refine ⟨⟨hw32, hmeets, hleast, fun budget' e' hle h' => ?_⟩, ?_, fun hlarge => ?_, ⟨hlength ▸ hmeets, hlength⟩,
    ⟨fun x hx => ?_, baseBlock_fits b e.baseWidth⟩, fun hpos => hleast _ (Nat.sub_lt hpos Nat.one_pos)⟩
  · exact chooseWidth_antitone hle hw (encodeBlock_ok_cases h').1
  · rintro rfl
    exact encodeBlock_budget_zero h
  · exact encodeBlock_budget_large h (hlarge.elim id (Int.ofNat_le.mpr (excess_le_length b 0)).trans)
  · exact two_pow_le_of_mem_outliersFrom (hexc ▸ hx)

/-- Settles O50: the empty block has no outlier at width 0. -/
theorem encodeEmptyBlock : Obligations.EncodeEmptyBlock := by
  refine fun budget => ⟨fun hpos => ?_, fun hneg => (encodeBlock_error_iff [] budget _).mpr ⟨rfl, hneg⟩⟩
  rw [encodeBlock, (chooseWidth_eq_some_zero_iff [] budget).mpr hpos]
  rfl

/-! ### The errors of `decode` -/

/-- The overlay fails exactly when one position, anywhere in the list, is out of range (44_pfor_codec.md R222). -/
theorem overlay_error_iff (count : Nat) (base : List Word) (x : List (Word × Word)) (k : ErrorKind) :
    overlay count base x = .error k ↔ k = .positionOutOfRange ∧ ∃ e ∈ x, count ≤ e.1.toNat := by
  refine ⟨overlay_error_cases, ?_⟩
  rintro ⟨rfl, e, he, hout⟩
  cases h : overlay count base x with
  | error k => rw [(overlay_error_cases h).1]
  | ok r => exact absurd ((overlay_ok_iff count base x).mp ⟨r, h⟩ e he) hout.not_gt

theorem decodeBlock_of_lt {e : EncodedBlock} {c : Nat} (h : e.packed.length < packedLength c e.baseWidth) :
    decodeBlock e c = .error .truncatedBuffer := by
  rw [decodeBlock, unpack_of_lt h]

theorem decodeBlock_of_unpack {e : EncodedBlock} {c : Nat} {base : List Word}
    (h : unpack e.packed e.baseWidth c = .ok base) : decodeBlock e c = overlay c base e.exceptions := by
  rw [decodeBlock, h]

/-- The two errors of `decode`: the length is tested first, then the positions (44_pfor_codec.md R222, R226). -/
theorem decodeBlock_error_iff (e : EncodedBlock) (c : Nat) (k : ErrorKind) :
    decodeBlock e c = .error k ↔
      (k = .truncatedBuffer ∧ e.packed.length < packedLength c e.baseWidth) ∨
      (k = .positionOutOfRange ∧ packedLength c e.baseWidth ≤ e.packed.length ∧
        ∃ x ∈ e.exceptions, c ≤ x.1.toNat) := by
  rcases Nat.lt_or_ge e.packed.length (packedLength c e.baseWidth) with hlt | hle
  · rw [decodeBlock_of_lt hlt, Except.error.injEq, eq_comm]
    simp [hlt]
  · rw [decodeBlock_of_unpack (unpack_of_le hle), overlay_error_iff]
    simp [hle, hle.not_gt]

/-- Settles O52: `decode` tests the length before it unpacks, and the overlay tests every position. -/
theorem decodeErrorsInOrder : Obligations.DecodeErrorsInOrder := by
  refine fun e c => ⟨(decodeBlock_error_iff e c _).trans ?_, (decodeBlock_error_iff e c _).trans ?_, fun k h => ?_⟩
  · simp [packedLength]
  · simp [packedLength]
  · exact ((decodeBlock_error_iff e c k).mp h).imp And.left And.left

end Sys2Proof.Machine
end

section
/-! The PFor round trip (44_pfor_codec.md R224): as functions, and in the core from PENC's outputs to PDEC's. -/

namespace Sys2Proof.Machine

/-! ### As functions -/

/-- Overlaying the outliers restores the block from its base, one element after another: `pre` is the part already restored.
A position is read back as it is because a `u32` can hold it (44_pfor_codec.md R224). -/
theorem overlay_outliersFrom {count w : Nat} (hcount : count ≤ 2 ^ 32) (pre b : List Word)
    (h : pre.length + b.length ≤ count) :
    overlay count (pre ++ baseBlock b w) (outliersFrom w pre.length b) = .ok (pre ++ b) := by
  induction b generalizing pre with
  | nil => rfl
  | cons v b ih =>
    rw [List.length_cons] at h
    have hstep := ih (pre ++ [v]) (by rw [List.length_append, List.length_singleton]; omega)
    rw [List.append_cons pre v b, ← hstep, List.length_append, List.length_singleton, baseBlock, List.map_cons,
      outliersFrom]
    by_cases hv : exceeds w v = true
    · have hin : pre.length < count := by omega
      have hpos : (BitVec.ofNat 32 pre.length).toNat = pre.length := Nat.mod_eq_of_lt (hin.trans_le hcount)
      rw [if_pos hv, if_pos hv, overlay, hpos, if_neg hin.not_ge, List.set_append_right _ _ le_rfl, Nat.sub_self,
        List.set_cons_zero, List.append_cons pre v]
      rfl
    · rw [if_neg hv, if_neg hv, List.append_cons pre v]
      rfl

theorem decodeBlock_of_encodeBlock {b : List Word} {budget : Int} {e : EncodedBlock} (hb : b.length ≤ 2 ^ 32)
    (h : encodeBlock b budget = .ok e) : decodeBlock e b.length = .ok b := by
  obtain ⟨-, hpack, hexc⟩ := encodeBlock_ok_cases h
  have hbase : unpack e.packed e.baseWidth b.length = .ok (baseBlock b e.baseWidth) :=
    baseBlock_length b e.baseWidth ▸ unpack_of_pack hpack
  rw [decodeBlock_of_unpack hbase, hexc]
  exact overlay_outliersFrom hb [] b (Nat.zero_add _).le

/-! ### The EncodedBlock that the core holds -/

theorem State.encoded_congr {s t : State} (hwidth : s.width = t.width) (hplen : s.plen = t.plen)
    (hexcnt : s.excnt = t.excnt) (hbytes : ∀ j, s.byteAt j = t.byteAt j) (hpos : ∀ k, s.posAt k = t.posAt k)
    (hval : ∀ k, s.valAt k = t.valAt k) : s.encoded = t.encoded := by
  rw [State.encoded, State.encoded, State.bitWidth, State.bitWidth, State.packed_congr hplen hbytes, State.exceptions,
    State.exceptions, hwidth, hexcnt, funext hpos, funext hval]

/-- An exception list that EXP and EXV can hold is the exception-list operand once it is written (30_encoding.md R93). -/
theorem State.exceptions_writeExceptions (s : State) {x : List (Word × Word)} (h : x.length ≤ Config.EXMAX) :
    (s.writeExceptions x).exceptions = x := by
  have hexcnt : (s.writeExceptions x).excnt.toNat = x.length := Nat.mod_eq_of_lt (h.trans_lt (by decide))
  apply List.ext_getElem
  · rw [State.exceptions_length, hexcnt]
  · intro k _ hk
    simp only [State.exceptions, List.getElem_map, List.getElem_range]
    rw [State.posAt_writeExceptions, State.valAt_writeExceptions, dif_pos hk, dif_pos hk]

/-- What the core can hold of an EncodedBlock (40_command_execution.md R125): it fits WIDTH's range, PKB, and EXP and EXV. -/
def EncodedBlock.Fits (e : EncodedBlock) : Prop :=
  e.baseWidth ≤ Config.WMAX ∧ e.packed.length ≤ Config.PKBMAX ∧ e.exceptions.length ≤ Config.EXMAX

/-- PDEC's operands are legal when COUNT is and the core holds an EncodedBlock that fits. -/
theorem operandsLegal_pdec_iff (s : State) :
    operandsLegal .pdec s = true ↔ s.count.toNat ≤ Config.NMAX ∧ s.encoded.Fits := by
  simp [operandsLegal, EncodedBlock.Fits, State.encoded, State.bitWidth, and_assoc]

theorem State.encoded_writeEncoded (s : State) {e : EncodedBlock} (h : e.Fits) : (s.writeEncoded e).encoded = e := by
  obtain ⟨hwidth, hbytes, hentries⟩ := h
  have hw : (s.writeEncoded e).bitWidth = e.baseWidth := Nat.mod_eq_of_lt (hwidth.trans_lt (by decide))
  have hq : (s.writeEncoded e).packed = e.packed := (s.setWidth e.baseWidth).packed_writePacked hbytes
  have hx : (s.writeEncoded e).exceptions = e.exceptions := State.exceptions_writeExceptions _ hentries
  rw [State.encoded, hw, hq, hx]

theorem encodeBlock_fits {b : List Word} {budget : Int} {e : EncodedBlock} (hb : b.length ≤ Config.NMAX)
    (h : encodeBlock b budget = .ok e) : e.Fits :=
  ⟨((chooseWidth_eq_some_iff b budget e.baseWidth).mp (encodeBlock_ok_cases h).1).1, encodeBlock_lengths hb h⟩

/-! ### In the core -/

/-- What PENC leaves when it completes with code 0: the EncodedBlock the core holds encodes the block operand
(44_pfor_codec.md R200). -/
theorem exec_penc_code_ok {s t : State} (h : exec .penc s = .next t) (hcode : t.code = .ok) :
    s.block.length ≤ Config.NMAX ∧ encodeBlock s.block s.exceptionBudget = .ok t.encoded := by
  obtain ⟨hlegal, _, hrun, rfl⟩ := exec_code_ok h hcode
  obtain ⟨e, he, rfl⟩ := runPenc_ok hrun
  have hcount : s.block.length ≤ Config.NMAX := by simpa [operandsLegal] using hlegal
  have hencoded : ((s.writeEncoded e).finish .ok).encoded = e := s.encoded_writeEncoded (encodeBlock_fits hcount he)
  exact ⟨hcount, hencoded.symm ▸ he⟩

/-- PDEC on legal operands writes the block that `decode` answers (44_pfor_codec.md R220). -/
theorem exec_pdec_of_decodeBlock {s : State} {b : List Word} (hlegal : operandsLegal .pdec s = true)
    (h : decodeBlock s.encoded s.count.toNat = .ok b) : exec .pdec s = .next ((s.writeBlock b).finish .ok) := by
  refine exec_of_run_ok hlegal ?_
  rw [runOf, runPdec, h]
  rfl

/-- PDEC restores the block that PENC read. -/
theorem exec_pdec_of_exec_penc {s t u : State} (h : exec .penc s = .next t) (hcode : t.code = .ok)
    (hcount : u.count = t.count) (hencoded : u.encoded = t.encoded) :
    exec .pdec u = .next ((u.writeBlock s.block).finish .ok) := by
  obtain ⟨hlen, hencode⟩ := exec_penc_code_ok h hcode
  rw [← hencoded] at hencode
  have hc : u.count.toNat = s.block.length := by rw [hcount, exec_count h, State.block_length]
  refine exec_pdec_of_decodeBlock ((operandsLegal_pdec_iff u).mpr ⟨hc.trans_le hlen, encodeBlock_fits hlen hencode⟩) ?_
  rw [hc]
  exact decodeBlock_of_encodeBlock (hlen.trans (by decide)) hencode

/-- Settles O51: the overlay restores the block from its base, and PENC leaves PDEC the encoded block as its operand. -/
theorem encodeThenDecodeGivesTheBlockBack : Obligations.EncodeThenDecodeGivesTheBlockBack := by
  refine ⟨fun b budget hb hpos => ?_, ?_⟩
  · obtain ⟨e, he⟩ := exists_encodeBlock_ok (b := b) hpos
    exact ⟨e, he, decodeBlock_of_encodeBlock hb he⟩
  · intro s t u h hcode hwidth hcount hplen hexcnt hbytes hpos hval
    have hencoded : u.encoded = t.encoded := State.encoded_congr hwidth hplen hexcnt hbytes hpos hval
    exact ⟨_, exec_pdec_of_exec_penc h hcode hcount hencoded, rfl, fun _ hi => s.laneAt_writeBlock_block u hi⟩

end Sys2Proof.Machine
end

section
/-! When a command raises which error kind (60_exceptions.md R241 to R248). One table, `Raises`, states the causes of R242 to
R245; a completion answers the code of an error kind exactly when the operands are legal and the table says so. -/

namespace Sys2Proof.Machine

/-! ### The causes of the four error kinds -/

/-- The cause of error kind `k` in command `i` at state `s` (60_exceptions.md R242 to R245). -/
def Raises (s : State) : Instr → ErrorKind → Prop
  | .selw, _ => False
  | .pack, k => k = .widthOverflow ∧ ∃ j < s.count.toNat, 2 ^ s.bitWidth ≤ (s.laneAt j).toNat
  | .unpk, k => k = .truncatedBuffer ∧ s.plen.toNat < s.need
  | .penc, k => k = .budgetUnreachable ∧ s.budget.getLsbD 31 = true
  | .pdec, k =>
    (k = .truncatedBuffer ∧ s.plen.toNat < s.need) ∨
    (k = .positionOutOfRange ∧ s.need ≤ s.plen.toNat ∧ ∃ j < s.excnt.toNat, s.count.toNat ≤ (s.posAt j).toNat)

theorem except_map_eq_error_iff {ε α β : Type} (f : α → β) (x : Except ε α) (e : ε) :
    x.map f = .error e ↔ x = .error e := by
  cases x with
  | error _ => simp [Except.map]
  | ok _ => simp [Except.map]

/-- The only error of `pack`, and its cause (42_bitpack.md R162). -/
theorem pack_error_iff (b : List Word) (w : Nat) (k : ErrorKind) :
    pack b w = .error k ↔ k = .widthOverflow ∧ ∃ v ∈ b, 2 ^ w ≤ v.toNat :=
  ⟨pack_error_cases, fun ⟨hk, hv⟩ => hk ▸ pack_of_exceeds hv⟩

/-- The only error of `unpack`, and its cause (43_bitunpack.md R182). -/
theorem unpack_error_iff (p : List Byte) (w c : Nat) (k : ErrorKind) :
    unpack p w c = .error k ↔ k = .truncatedBuffer ∧ p.length < packedLength c w :=
  ⟨unpack_error_cases, fun ⟨hk, hlt⟩ => hk ▸ unpack_of_lt hlt⟩

/-- The budget operand is negative exactly when bit 31 of BUDGET is set (30_encoding.md R101). -/
theorem exceptionBudget_neg_iff (s : State) : s.exceptionBudget < 0 ↔ s.budget.getLsbD 31 = true := by
  have hmsb : s.budget.getLsbD 31 = decide (s.exceptionBudget < 0) :=
    (BitVec.msb_eq_getLsbD_last s.budget).symm.trans BitVec.msb_eq_toInt
  rw [hmsb, decide_eq_true_iff]

/-- The table is what each `run` answers: every cause is that of the command's function. -/
theorem runOf_error_iff (i : Instr) (s : State) (k : ErrorKind) : runOf i s = .error k ↔ Raises s i k := by
  cases i with
  | selw => exact ⟨nofun, False.elim⟩
  | pack =>
    rw [runOf, runPack, except_map_eq_error_iff, pack_error_iff, Raises]
    simp [mem_block_iff]
  | unpk =>
    rw [runOf, runUnpk, except_map_eq_error_iff, unpack_error_iff, State.packed_length]
    rfl
  | penc =>
    rw [runOf, runPenc, except_map_eq_error_iff, encodeBlock_error_iff, exceptionBudget_neg_iff]
    rfl
  | pdec =>
    rw [runOf, runPdec, except_map_eq_error_iff, decodeBlock_error_iff, Raises]
    simp [State.encoded, mem_exceptions_iff, State.need]

/-! ### Which commands have a cause at all -/

section
variable {s : State} {i : Instr}

theorem Raises.eq_pack (h : Raises s i .widthOverflow) : i = .pack := by
  cases i with
  | pack => rfl
  | _ => simp [Raises] at h

theorem Raises.eq_unpk_or_pdec (h : Raises s i .truncatedBuffer) : i = .unpk ∨ i = .pdec := by
  cases i with
  | unpk => exact .inl rfl
  | pdec => exact .inr rfl
  | _ => simp [Raises] at h

theorem Raises.eq_penc (h : Raises s i .budgetUnreachable) : i = .penc := by
  cases i with
  | penc => rfl
  | _ => simp [Raises] at h

theorem Raises.eq_pdec (h : Raises s i .positionOutOfRange) : i = .pdec := by
  cases i with
  | pdec => rfl
  | _ => simp [Raises] at h

/-- UNPK and PDEC test the length alike (60_exceptions.md R243). -/
theorem raises_truncatedBuffer_iff (hi : i = .unpk ∨ i = .pdec) :
    Raises s i .truncatedBuffer ↔ s.plen.toNat < s.need := by
  rcases hi with rfl | rfl <;> simp [Raises]

end

/-! ### The code of a completion -/

theorem exec_next (i : Instr) (s : State) : ∃ t, exec i s = .next t := by
  rcases exec_cases i s with ⟨-, he⟩ | ⟨-, u, -, he⟩ | ⟨-, k, -, he⟩
  · exact ⟨_, he⟩
  · exact ⟨_, he⟩
  · exact ⟨_, he⟩

theorem ErrorKind.code_inj {k l : ErrorKind} : k.code = l.code ↔ k = l := by
  cases k <;> cases l <;> decide

theorem exec_of_raises {i : Instr} {s : State} {k : ErrorKind} (hlegal : operandsLegal i s = true) (h : Raises s i k) :
    exec i s = .next ((s.spoil (failureRange i s)).finish k.code) :=
  exec_of_run_error hlegal ((runOf_error_iff i s k).mpr h)

/-- A completion answers the code of an error kind exactly when the operands are legal and the kind has its cause
(40_command_execution.md R123, 60_exceptions.md R241). -/
theorem exec_code_eq_kind_iff {i : Instr} {s t : State} (h : exec i s = .next t) (k : ErrorKind) :
    t.code = k.code ↔ operandsLegal i s = true ∧ Raises s i k := by
  refine ⟨fun hcode => ?_, fun ⟨hlegal, hraises⟩ => ?_⟩
  · rcases exec_cases i s with ⟨-, he⟩ | ⟨-, u, -, he⟩ | ⟨hlegal, l, hrun, he⟩
    · obtain rfl := Host.Outcome.next.inj (he.symm.trans h)
      exact absurd hcode.symm k.code_ne_illegalCommand
    · obtain rfl := Host.Outcome.next.inj (he.symm.trans h)
      exact absurd hcode.symm k.code_ne_ok
    · obtain rfl := Host.Outcome.next.inj (he.symm.trans h)
      obtain rfl : l = k := ErrorKind.code_inj.mp hcode
      exact ⟨hlegal, (runOf_error_iff i s l).mp hrun⟩
  · obtain rfl := Host.Outcome.next.inj ((exec_of_raises hlegal hraises).symm.trans h)
    rfl

/-- An error code has its cause: what every "never" of R242 to R245 rests on. -/
theorem raises_of_exec_code {i : Instr} {s t : State} (h : exec i s = .next t) (k : ErrorKind) (hcode : t.code = k.code) :
    Raises s i k := ((exec_code_eq_kind_iff h k).mp hcode).2

/-- With legal operands the cause alone decides. -/
theorem exec_code_iff_raises {i : Instr} {s : State} (hlegal : operandsLegal i s = true) (k : ErrorKind) :
    ∃ t, exec i s = .next t ∧ (t.code = k.code ↔ Raises s i k) := by
  obtain ⟨t, ht⟩ := exec_next i s
  exact ⟨t, ht, (exec_code_eq_kind_iff ht k).trans (and_iff_right hlegal)⟩

/-! ### WidthOverflow, TruncatedBuffer, PositionOutOfRange, IllegalCommand -/

theorem not_raises_widthOverflow {s : State} (h : s.width.toNat = 32 ∨ s.count = 0) :
    ¬ Raises s .pack .widthOverflow := by
  rintro ⟨-, j, hj, hle⟩
  rcases h with hwidth | hcount
  · rw [State.bitWidth, hwidth] at hle
    exact hle.not_gt (s.laneAt j).isLt
  · rw [hcount] at hj
    exact Nat.not_lt_zero j hj

/-- Settles O24: only PACK has the cause, a lane at or above `2^WIDTH`; at width 32 no lane is, at COUNT 0 there is none. -/
theorem widthOverflowExactly : Obligations.WidthOverflowExactly := by
  refine fun s => ⟨fun hlegal => ?_, fun hnever t ht hcode => ?_, fun i t hi ht hcode => ?_⟩
  · obtain ⟨t, ht, hiff⟩ := exec_code_iff_raises hlegal .widthOverflow
    exact ⟨t, ht, hiff.trans (and_iff_right rfl)⟩
  · exact not_raises_widthOverflow hnever (raises_of_exec_code ht .widthOverflow hcode)
  · exact hi (raises_of_exec_code ht .widthOverflow hcode).eq_pack

theorem need_eq_zero {s : State} (h : s.width = 0 ∨ s.count = 0) : s.need = 0 :=
  packedLength_eq_zero (h.symm.imp (congrArg BitVec.toNat) (congrArg BitVec.toNat))

/-- Settles O25: only UNPK and PDEC have the cause, a PLEN below the need; a need of 0 is always met. -/
theorem truncatedBufferExactly : Obligations.TruncatedBufferExactly := by
  refine fun s i => ⟨fun hi hlegal => ?_, fun hnever t ht hcode => ?_, fun t hunpk hpdec ht hcode => ?_⟩
  · obtain ⟨t, ht, hiff⟩ := exec_code_iff_raises hlegal .truncatedBuffer
    exact ⟨t, ht, hiff.trans (raises_truncatedBuffer_iff hi)⟩
  · have hraises := raises_of_exec_code ht .truncatedBuffer hcode
    have hlt := (raises_truncatedBuffer_iff hraises.eq_unpk_or_pdec).mp hraises
    rw [need_eq_zero hnever] at hlt
    exact Nat.not_lt_zero _ hlt
  · exact (raises_of_exec_code ht .truncatedBuffer hcode).eq_unpk_or_pdec.elim hunpk hpdec

/-- Settles O27: only PDEC has the cause, a position at or above COUNT once PLEN covers the need. -/
theorem positionOutOfRangeExactly : Obligations.PositionOutOfRangeExactly := by
  refine fun s => ⟨fun hlegal => ?_, fun i t hi ht hcode => ?_⟩
  · obtain ⟨t, ht, hiff⟩ := exec_code_iff_raises hlegal .positionOutOfRange
    refine ⟨t, ht, hiff.trans ?_⟩
    simp [Raises, State.need, State.bitWidth, packedLength]
  · exact hi (raises_of_exec_code ht .positionOutOfRange hcode).eq_pdec

/-- A command answers code 5 exactly when its operand conditions fail (40_command_execution.md R125). -/
theorem exec_code_illegalCommand_iff {i : Instr} {s t : State} (h : exec i s = .next t) :
    t.code = .illegalCommand ↔ operandsLegal i s = false := by
  refine ⟨fun hcode => (exec_code_illegalCommand h hcode).1, fun hlegal => ?_⟩
  obtain rfl := Host.Outcome.next.inj ((exec_of_illegalOperands hlegal).symm.trans h)
  rfl

/-- Settles O28: a word that does not decode always answers code 5, one that decodes when its operands are illegal. -/
theorem illegalCommandExactly : Obligations.IllegalCommandExactly := by
  intro s
  cases hd : decode s.cmdl with
  | none => exact ⟨_, complete_illegal hd, iff_of_true rfl (.inl rfl)⟩
  | some i =>
    obtain ⟨t, ht⟩ := exec_next i s
    refine ⟨t, (complete_of_decode hd).trans ht, (exec_code_illegalCommand_iff ht).trans ?_⟩
    simp

/-! ### BudgetUnreachable: PENC alone reads BUDGET

For any other command a write of BUDGET (10_state.md R39) commutes with the completion. -/

/-- `run` computes its answer without BUDGET and writes it beside BUDGET. -/
theorem runOf_store_budget {i : Instr} (hi : i ≠ .penc) (s : State) (v : Word) :
    runOf i (s.store (.reg .budget v)) = (runOf i s).map fun t => t.store (.reg .budget v) := by
  cases i with
  | penc => exact absurd rfl hi
  | selw => rfl
  | pack => exact comp_map s.writePacked (State.store · (.reg .budget v)) (pack s.block s.bitWidth)
  | unpk => exact comp_map s.writeBlock (State.store · (.reg .budget v)) (unpack s.packed s.bitWidth s.count.toNat)
  | pdec => exact comp_map s.writeBlock (State.store · (.reg .budget v)) (decodeBlock s.encoded s.count.toNat)

/-- BUDGET is no register whose legality is checked (40_command_execution.md R125). -/
theorem operandsLegal_store_budget (i : Instr) (s : State) (v : Word) :
    operandsLegal i (s.store (.reg .budget v)) = operandsLegal i s := by
  cases i <;> rfl

theorem failureRange_store_budget (i : Instr) (s : State) (v : Word) :
    failureRange i (s.store (.reg .budget v)) = failureRange i s := by
  cases i <;> rfl

/-- A command other than PENC completes alike under any BUDGET and leaves it as it was (60_exceptions.md R244). -/
theorem exec_store_budget {i : Instr} (hi : i ≠ .penc) {s t : State} (h : exec i s = .next t) (v : Word) :
    exec i (s.store (.reg .budget v)) = .next (t.store (.reg .budget v)) := by
  have hrun' := runOf_store_budget hi s v
  have hlegal' := operandsLegal_store_budget i s v
  rcases exec_cases i s with ⟨hlegal, he⟩ | ⟨hlegal, u, hrun, he⟩ | ⟨hlegal, k, hrun, he⟩
  · obtain rfl := Host.Outcome.next.inj (he.symm.trans h)
    exact exec_of_illegalOperands (hlegal'.trans hlegal)
  · obtain rfl := Host.Outcome.next.inj (he.symm.trans h)
    rw [hrun] at hrun'
    exact exec_of_run_ok (hlegal'.trans hlegal) hrun'
  · obtain rfl := Host.Outcome.next.inj (he.symm.trans h)
    rw [hrun] at hrun'
    rw [exec_of_run_error (hlegal'.trans hlegal) hrun', failureRange_store_budget]
    rfl

theorem State.elementAt_store_budget (s : State) (v : Word) {l : Loc} (h : l ≠ .reg .budget) :
    (s.store (.reg .budget v)).elementAt l = s.elementAt l := by
  cases l with
  | reg r =>
    cases r with
    | budget => exact absurd rfl h
    | _ => rfl
  | _ => rfl

/-- Settles O26: PENC has the cause when the budget is negative; any other command ends, whatever BUDGET is, in one state but
for that BUDGET. -/
theorem budgetUnreachableExactly : Obligations.BudgetUnreachableExactly := by
  refine fun s i => ⟨fun hlegal => ?_, fun hi v => ?_⟩
  · obtain ⟨t, ht, hiff⟩ := exec_code_iff_raises hlegal .budgetUnreachable
    exact ⟨t, ht, hiff.trans (and_iff_right rfl)⟩
  · obtain ⟨t, ht⟩ := exec_next i s
    refine ⟨t, t.store (.reg .budget v), ht, exec_store_budget hi ht v, fun hcode => ?_, rfl, fun _ => rfl,
      fun _ _ l hl _ => t.elementAt_store_budget v hl⟩
    exact hi (raises_of_exec_code ht .budgetUnreachable hcode).eq_penc

/-! ### The table of codes -/

/-- After reset every lane is out of COUNT, the need is 0, BUDGET is 0 and no exception is listed. -/
theorem not_raises_reset (i : Instr) (k : ErrorKind) : ¬ Raises State.reset i k := by
  cases i <;> simp [Raises, State.reset, State.need, packedLength, ceilDiv]

/-- Straight after reset every command completes with code 0 (70_reset_and_hazards.md R285). -/
theorem exec_reset_code_ok (i : Instr) : ∃ t, exec i State.reset = .next t ∧ t.code = .ok := by
  rcases exec_cases i State.reset with ⟨hlegal, -⟩ | ⟨-, u, -, he⟩ | ⟨-, k, hrun, -⟩
  · cases i <;> cases hlegal
  · exact ⟨_, he, rfl⟩
  · exact absurd ((runOf_error_iff i State.reset k).mp hrun) (not_raises_reset i k)

/-- Settles O29: each code is that of one of the three outcomes, an error kind with a cause for that command; and every code
of the table is reached, from reset with the registers and the one element that make its cause hold. -/
theorem codeTableIsExact : Obligations.CodeTableIsExact := by
  refine ⟨fun i c => ⟨?_, ?_⟩, fun s t hd h => ?_⟩
  · rintro ⟨s, t, h, rfl⟩
    rcases exec_cases i s with ⟨-, he⟩ | ⟨-, u, -, he⟩ | ⟨-, k, hrun, he⟩
    · obtain rfl := Host.Outcome.next.inj (he.symm.trans h)
      exact .inr (.inl rfl)
    · obtain rfl := Host.Outcome.next.inj (he.symm.trans h)
      exact .inl rfl
    · obtain rfl := Host.Outcome.next.inj (he.symm.trans h)
      have hraises := (runOf_error_iff i s k).mp hrun
      cases k with
      | widthOverflow => simp [hraises.eq_pack, ErrorKind.code]
      | truncatedBuffer => rcases hraises.eq_unpk_or_pdec with rfl | rfl <;> simp [ErrorKind.code]
      | budgetUnreachable => simp [hraises.eq_penc, ErrorKind.code]
      | positionOutOfRange => simp [hraises.eq_pdec, ErrorKind.code]
  · rintro (rfl | rfl | ⟨rfl, rfl⟩ | ⟨rfl, rfl⟩ | ⟨rfl, rfl⟩ | ⟨rfl, rfl | rfl⟩)
    · exact ⟨_, exec_reset_code_ok i⟩
    · exact ⟨{ State.reset with count := 257 }, _, exec_of_illegalOperands (by cases i <;> rfl), rfl⟩
    · exact ⟨{ State.reset with count := 1, blk := [(0, 1)] }, _,
        exec_of_raises (k := .widthOverflow) rfl ⟨rfl, 0, by decide, by decide⟩, rfl⟩
    · exact ⟨{ State.reset with count := 1, width := 8 }, _,
        exec_of_raises (k := .truncatedBuffer) rfl ⟨rfl, by decide⟩, rfl⟩
    · exact ⟨{ State.reset with budget := 0x80000000 }, _,
        exec_of_raises (k := .budgetUnreachable) rfl ⟨rfl, rfl⟩, rfl⟩
    · exact ⟨{ State.reset with count := 1, width := 8 }, _,
        exec_of_raises (k := .truncatedBuffer) rfl (.inl ⟨rfl, by decide⟩), rfl⟩
    · exact ⟨{ State.reset with excnt := 1, exp := [(0, 0)] }, _,
        exec_of_raises (k := .positionOutOfRange) rfl (.inr ⟨rfl, by decide, 0, by decide, by decide⟩), rfl⟩
  · obtain rfl := Host.Outcome.next.inj ((complete_illegal hd).symm.trans h)
    rfl

end Sys2Proof.Machine
end

section
/-! The decoder and the encoder are inverse (30_encoding.md sections 1, 3 and 4). -/

namespace Sys2Proof

theorem decode_encode (i : Instr) : decode (encode i) = some i := by cases i <;> decide

/-- Only the five words of the table decode, each to its own command (30_encoding.md R92, R96). -/
theorem eq_encode_of_decode {c : Word} {i : Instr} (h : decode c = some i) : c = encode i := by
  by_cases hrsv : c.toNat / 8 = 0
  · have hop : c.toNat % 8 = c.toNat := Nat.mod_eq_of_lt (by omega)
    rw [decode_of_reservedClear hrsv, hop] at h
    split_ifs at h <;> cases h <;> exact BitVec.eq_of_toNat_eq ‹c.toNat = _›
  · rw [decode_of_reservedBits hrsv] at h
    cases h

/-- At 32 bits the table's reading of a word is the decoder's. -/
theorem decodeTableWord_toNat (c : Word) : decodeTableWord 32 c.toNat = decode c := by
  rw [decodeTableWord, Nat.mod_eq_of_lt c.isLt, if_pos c.isLt, BitVec.ofNat_toNat, BitVec.setWidth_eq]

/-- The legal-word check holds of exactly 1 to 5 (30_encoding.md R92, R97, R98). -/
theorem wellFormed_word_iff (c : Word) : WellFormed.word c = true ↔ 1 ≤ c.toNat ∧ c.toNat ≤ 5 := by
  simp only [WellFormed.word, WellFormed.reservedClear, WellFormed.opAssigned, Bool.and_eq_true, beq_iff_eq,
    decide_eq_true_eq]
  omega

/-- Settles O3: the decoder gives each command back from its word, no other word decodes, and the legal-word check and
the decoder both accept 1 to 5. -/
theorem decodeAndEncodeAgree : Obligations.DecodeAndEncodeAgree := by
  intro c i
  refine ⟨⟨eq_encode_of_decode, fun h => h ▸ decode_encode i⟩, ?_, ?_⟩
  · rw [decodeTableWord_toNat, decode_encode]
  · rw [Bool.eq_iff_iff, wellFormed_word_iff, decode_isSome_iff]

/-- Settles O1: eleven fixed words, by evaluation of the decoder. -/
theorem commandTableWordsDecode : Obligations.CommandTableWordsDecode := by
  unfold Obligations.CommandTableWordsDecode
  decide

end Sys2Proof
end

section
/-! The invariant: it holds at reset, and each update of the state keeps it (20_memory.md section 1, 10_state.md
section 3). -/

namespace Sys2Proof.Machine

/-! ### The updates that every step is made of -/

/-- Settles O14: nothing is listed or marked after reset. -/
theorem invariantHoldsAtReset : Obligations.InvariantHoldsAtReset where
  blk := rfl
  pkb := rfl
  exp := rfl
  exv := rfl
  busyCode := nofun
  draws := Nat.zero_lt_one
  lost := Lost.wf_nothing

/-- The state with another plan of turns and other answers: what the core's own record leaves to the model (logs 1 and
3). -/
def State.withTurns (s : State) (a : List Turn) (d : List Datum) : State := { s with agenda := a, answers := d }

section
variable {s : State}

/-- The agenda and the answers are no part of the invariant. -/
theorem State.Inv.withTurns (h : s.Inv) (a : List Turn) (d : List Datum) :
    (s.withTurns a d).Inv :=
  { h with }

/-- In IDLE the code may be any. -/
theorem State.Inv.finish (h : s.Inv) (c : ResultCode) : (s.finish c).Inv :=
  { h with busyCode := nofun }

theorem State.Inv.issue (h : s.Inv) (c : Word) : (s.issue c).Inv :=
  { h with busyCode := fun _ => rfl }

theorem State.Inv.platformReset (s : State) : s.platformReset.Inv where
  blk := rfl
  pkb := rfl
  exp := rfl
  exv := rfl
  busyCode := nofun
  draws := Nat.lt_succ_self s.draws
  lost := Lost.wf_nothing

theorem State.Inv.setWidth (h : s.Inv) (w : Nat) : (s.setWidth w).Inv :=
  { h with lost := State.lost_wf_setWidth w h.lost }

theorem State.Inv.writeBlock (h : s.Inv) {b : List Word} (hb : b.length ≤ Config.NMAX) : (s.writeBlock b).Inv :=
  { h with blk := cellsWf_putFront b hb s.blk h.blk, lost := State.lost_wf_writeBlock b h.lost }

theorem State.Inv.writePacked (h : s.Inv) {q : List Byte} (hq : q.length ≤ Config.PKBMAX) : (s.writePacked q).Inv :=
  { h with pkb := memory_wf_putFront q hq s.pkb h.pkb, lost := State.lost_wf_writePacked q h.lost }

theorem State.Inv.writeExceptions (h : s.Inv) {x : List (Word × Word)} (hx : x.length ≤ Config.EXMAX) :
    (s.writeExceptions x).Inv :=
  { h with
    exp := cellsWf_putFront _ (by simpa using hx) s.exp h.exp
    exv := cellsWf_putFront _ (by simpa using hx) s.exv h.exv
    lost := State.lost_wf_writeExceptions x h.lost }

theorem State.Inv.writeEncoded (h : s.Inv) {e : EncodedBlock} (he : e.Fits) : (s.writeEncoded e).Inv :=
  ((h.setWidth e.baseWidth).writePacked he.2.1).writeExceptions he.2.2

/-- A failure range within the buffers keeps the canonical form. -/
theorem State.Inv.spoil (h : s.Inv) {r : FailureRange} (hl : r.lanes ≤ Config.NMAX) (hb : r.bytes ≤ Config.PKBMAX)
    (he : r.entries ≤ Config.EXMAX) : (s.spoil r).Inv where
  blk := cellsWf_putFront _ (by simpa using hl) s.blk h.blk
  pkb := memory_wf_putFront _ (by simpa using hb) s.pkb h.pkb
  exp := cellsWf_putFront _ (by simpa using he) s.exp h.exp
  exv := cellsWf_putFront _ (by simpa using he) s.exv h.exv
  busyCode := h.busyCode
  draws := Nat.lt_succ_of_lt h.draws
  lost := Lost.wf_add hl hb he h.lost

/-- A host write puts its element at an index of its buffer (log 9). -/
theorem State.Inv.store (h : s.Inv) (w : Store) : (s.store w).Inv := by
  have hlost := State.lost_wf_store w h.lost
  cases w with
  | reg r v =>
    cases r with
    | cmd => exact h.issue v
    | _ => exact { h with lost := hlost }
  | blk i v => exact { h with blk := cellsWf_put i.isLt v s.blk h.blk, lost := hlost }
  | pkb j v => exact { h with pkb := memory_wf_put j.isLt v s.pkb h.pkb, lost := hlost }
  | exp k v => exact { h with exp := cellsWf_put k.isLt v s.exp h.exp, lost := hlost }
  | exv k v => exact { h with exv := cellsWf_put k.isLt v s.exv h.exv, lost := hlost }

end

/-! ### Completion -/

/-- With legal operands COUNT is legal, whatever the command (40_command_execution.md R125). -/
theorem count_le_of_operandsLegal {i : Instr} {s : State} (h : operandsLegal i s = true) :
    s.count.toNat ≤ Config.NMAX := by
  cases i <;> simp only [operandsLegal, Bool.and_eq_true, decide_eq_true_eq, and_assoc] at h
  case selw | penc => exact h
  all_goals exact h.1

/-- With legal operands PACK's failure range, the needed bytes, lies within PKB. -/
theorem need_le_of_operandsLegal_pack {s : State} (h : operandsLegal .pack s = true) : s.need ≤ Config.PKBMAX := by
  obtain ⟨hcount, hwidth⟩ : s.count.toNat ≤ Config.NMAX ∧ s.width.toNat ≤ Config.WMAX := by
    simpa [operandsLegal] using h
  exact packedLength_le hcount hwidth

/-- With legal operands every failure range lies within the buffers (40_command_execution.md R130). -/
theorem failureRange_le_of_operandsLegal {i : Instr} {s : State} (h : operandsLegal i s = true) :
    (failureRange i s).lanes ≤ Config.NMAX ∧ (failureRange i s).bytes ≤ Config.PKBMAX ∧
      (failureRange i s).entries ≤ Config.EXMAX := by
  have hcount := count_le_of_operandsLegal h
  cases i with
  | selw => exact ⟨Nat.zero_le _, Nat.zero_le _, Nat.zero_le _⟩
  | pack => exact ⟨Nat.zero_le _, need_le_of_operandsLegal_pack h, Nat.zero_le _⟩
  | unpk => exact ⟨hcount, Nat.zero_le _, Nat.zero_le _⟩
  | penc => exact ⟨Nat.zero_le _, Nat.mul_le_mul_left 4 hcount, hcount⟩
  | pdec => exact ⟨hcount, Nat.zero_le _, Nat.zero_le _⟩

/-- What a command writes on success fits its buffers. -/
theorem runOf_inv {i : Instr} {s t : State} (h : s.Inv) (hlegal : operandsLegal i s = true) (hrun : runOf i s = .ok t) :
    t.Inv := by
  have hcount := count_le_of_operandsLegal hlegal
  cases i with
  | selw =>
    obtain rfl := runSelw_ok hrun
    exact h.setWidth _
  | pack =>
    obtain ⟨q, hq, rfl⟩ := runPack_ok hrun
    refine h.writePacked ?_
    rw [pack_length hq, State.block_length]
    exact need_le_of_operandsLegal_pack hlegal
  | unpk =>
    obtain ⟨b, hb, rfl⟩ := runUnpk_ok hrun
    obtain ⟨-, rfl⟩ := unpack_ok_cases hb
    exact h.writeBlock (by simpa using hcount)
  | penc =>
    obtain ⟨e, he, rfl⟩ := runPenc_ok hrun
    exact h.writeEncoded (encodeBlock_fits (s.block_length.trans_le hcount) he)
  | pdec =>
    obtain ⟨b, hb, rfl⟩ := runPdec_ok hrun
    exact h.writeBlock ((decodeBlock_length hb).trans_le hcount)

theorem exec_inv {i : Instr} {s t : State} (h : s.Inv) (hexec : exec i s = .next t) : t.Inv := by
  rcases exec_cases i s with ⟨-, he⟩ | ⟨hlegal, u, hrun, he⟩ | ⟨hlegal, k, -, he⟩
  · obtain rfl := Host.Outcome.next.inj (he.symm.trans hexec)
    exact h.finish _
  · obtain rfl := Host.Outcome.next.inj (he.symm.trans hexec)
    exact (runOf_inv h hlegal hrun).finish _
  · obtain rfl := Host.Outcome.next.inj (he.symm.trans hexec)
    obtain ⟨hl, hb, hx⟩ := failureRange_le_of_operandsLegal hlegal
    exact (h.spoil hl hb hx).finish _

theorem complete_inv {s t : State} (h : s.Inv) (hcomplete : complete s = .next t) : t.Inv := by
  cases hd : decode s.cmdl with
  | none =>
    obtain rfl := Host.Outcome.next.inj ((complete_illegal hd).symm.trans hcomplete)
    exact h.finish _
  | some i => exact exec_inv h ((complete_of_decode hd).symm.trans hcomplete)

/-- Settles O15: each kind of step is made of updates that keep the invariant. -/
theorem everyStepKeepsInvariant : Obligations.EveryStepKeepsInvariant := by
  intro s t h hstep
  have hdrop : s.dropTurn.Inv := h.withTurns s.agenda.tail s.answers
  rcases step_next_cases hstep with ⟨-, -, rfl⟩ | ⟨-, -, hc⟩ | ⟨l, rest, -, -, rfl⟩ | ⟨w, rest, -, -, rfl⟩ |
      ⟨rest, -, rfl⟩
  · exact hdrop
  · exact complete_inv hdrop hc
  · exact hdrop.withTurns s.agenda.tail (s.dropTurn.elementAt l :: s.answers)
  · exact hdrop.store w
  · exact State.Inv.platformReset s.dropTurn

end Sys2Proof.Machine
end

section
/-! The steps of the machine (40_command_execution.md section 1): what each turn does to a state, when a step is
refused, and how a command runs from issue to the last read of STATUS. -/

namespace Sys2Proof.Machine

/-! ### One turn -/

theorem dropTurn_of_cons {s : State} {t : Turn} {rest : List Turn} (h : s.agenda = t :: rest) :
    s.dropTurn = s.withTurns rest s.answers := by
  rw [State.dropTurn, h]; rfl

theorem coreTurn_of_idle {s : State} (h : s.phase = .idle) : coreTurn s = .next s := by
  rw [coreTurn, h]

theorem coreTurn_of_busy {s : State} (h : s.phase = .busy) : coreTurn s = complete s := by
  rw [coreTurn, h]

theorem hostWrite_of_idle {s : State} (h : s.phase = .idle) (w : Store) : hostWrite w s = .next (s.store w) := by
  rw [hostWrite, h]

theorem hostWrite_of_busy {s : State} (h : s.phase = .busy) (w : Store) :
    hostWrite w s = .refused .hostAccessWhileBusy := by
  rw [hostWrite, h]

theorem hostRead_of_enabled {s : State} {l : Loc} (h : readEnabled l s = true) :
    hostRead l s = .next { s with answers := s.elementAt l :: s.answers } := by
  rw [hostRead, if_pos h]

theorem hostRead_of_disabled {s : State} {l : Loc} (h : readEnabled l s = false) :
    hostRead l s = .refused .hostAccessWhileBusy := by
  rw [hostRead, h]; rfl

theorem readEnabled_iff (l : Loc) (s : State) : readEnabled l s = true ↔ s.phase = .idle ∨ l = .reg .status := by
  simp [readEnabled]

/-- The agenda and the answers are in no location. -/
theorem State.elementAt_withTurns (s : State) (a : List Turn) (d : List Datum) (l : Loc) :
    (s.withTurns a d).elementAt l = s.elementAt l := by
  cases l with
  | reg r => cases r <;> rfl
  | _ => rfl

/-- A read that is enabled records the element (40_command_execution.md R120). -/
theorem step_of_read {s : State} {l : Loc} {rest : List Turn} (he : s.phase = .idle ∨ l = .reg .status)
    (h : s.agenda = .read l :: rest) :
    step s = .next (s.withTurns rest (s.elementAt l :: s.answers)) := by
  rw [step_of_turn h, dropTurn_of_cons h, ← s.elementAt_withTurns rest s.answers l]
  exact hostRead_of_enabled ((readEnabled_iff _ _).mpr he)

theorem step_of_write {s : State} {w : Store} {rest : List Turn} (hp : s.phase = .idle)
    (h : s.agenda = .write w :: rest) : step s = .next ((s.withTurns rest s.answers).store w) := by
  rw [step_of_turn h, dropTurn_of_cons h]
  exact hostWrite_of_idle (s := s.withTurns rest s.answers) hp w

/-- Settles O4: in BUSY the core's turn is the completion of the word in CMDL, in IDLE it is nothing. -/
theorem stepRunsTheDecodedCommand : Obligations.StepRunsTheDecodedCommand := by
  intro s h
  rw [step_of_coreTurn h]
  exact ⟨fun i hp hd => (coreTurn_of_busy (s := s.dropTurn) hp).trans (complete_of_decode hd),
    fun hp => coreTurn_of_idle (s := s.dropTurn) hp⟩

/-- Settles O6: the host write to CMD is the issue, whatever the word. -/
theorem issueStepLatchesAnyWord : Obligations.IssueStepLatchesAnyWord := by
  intro s c rest hp h
  exact step_of_write hp h

/-- Settles O7: an enabled read only records, so the next one finds the same element. -/
theorem hostReadAnswersAndChangesNothing : Obligations.HostReadAnswersAndChangesNothing := by
  intro s l rest he h
  refine ⟨step_of_read he h, ?_, rfl, rfl, rfl, rfl, rfl, rfl⟩
  rintro rest' rfl
  have hsecond := step_of_read (s := s.withTurns (.read l :: rest') (s.elementAt l :: s.answers)) he rfl
  rw [s.elementAt_withTurns] at hsecond
  exact (runSteps_succ_of_next (step_of_read he h) 1).trans (runSteps_succ_of_next hsecond 0)

/-! ### STATUS -/

/-- Bits 30:3 of STATUS are 0, and the bits about them are those of the phase and the code (10_state.md R25). -/
theorem getLsbD_statusWord (s : State) (k : Nat) :
    s.statusWord.getLsbD k =
      if k < 3 then s.code.bits.getLsbD k else decide (31 ≤ k) && s.phase.bit.getLsbD (k - 31) := by
  rw [State.statusWord, BitVec.getLsbD_append, BitVec.getLsbD_append]
  by_cases h3 : k < 3
  · simp [h3]
  · by_cases h31 : 31 ≤ k
    · have hk : ¬ k - 3 < 28 := by omega
      have hsub : k - 3 - 28 = k - 31 := by omega
      simp [h3, h31, hk, hsub]
    · have hk : k - 3 < 28 := by omega
      simp [h3, h31, hk]

/-- In IDLE a read of STATUS is the code, zero-extended (10_state.md R25). -/
theorem statusWord_of_idle {s : State} (h : s.phase = .idle) : s.statusWord = s.code.bits.setWidth 32 := by
  rw [State.statusWord, h]
  cases s.code <;> rfl

/-- While a command is in flight STATUS reads BUSY and nothing else. -/
theorem statusWord_of_busy {s : State} (hp : s.phase = .busy) (hc : s.code = .ok) : s.statusWord = 0x80000000#32 := by
  rw [State.statusWord, hp, hc]
  rfl

/-- Settles O8: the word's bits, field by field. -/
theorem statusWordFields : Obligations.StatusWordFields := by
  intro s
  refine ⟨rfl, ?_, fun k hk3 hk30 => ?_, ?_, rfl, rfl, rfl, rfl, rfl, rfl, fun c => statusWord_of_busy rfl rfl⟩
  · rw [getLsbD_statusWord]
    cases s.phase <;> rfl
  · rw [getLsbD_statusWord, if_neg (by omega), decide_eq_false (by omega), Bool.false_and]
  · apply BitVec.eq_of_getLsbD_eq
    intro k hk
    rw [BitVec.getLsbD_extractLsb', Nat.zero_add, getLsbD_statusWord, if_pos hk, decide_eq_true hk, Bool.true_and]

/-! ### Which steps are refused -/

/-- What breaks "hands off while busy" (70_reset_and_hazards.md R290, within BUSY: log 22). -/
theorem hazardFree_eq_false_iff (s : State) :
    s.hazardFree = false ↔
      s.phase = .busy ∧ ∃ rest, (∃ w, s.agenda = .write w :: rest) ∨
        ∃ l, s.agenda = .read l :: rest ∧ l ≠ .reg .status := by
  unfold State.hazardFree
  cases hp : s.phase with
  | idle => simp
  | busy =>
    cases ha : s.agenda with
    | nil => simp
    | cons t rest => cases t <;> simp [Turn.forbiddenInBusy]

theorem step_of_hazard {s : State} (h : s.hazardFree = false) : step s = .refused .hostAccessWhileBusy := by
  obtain ⟨hp, rest, ⟨w, ha⟩ | ⟨l, ha, hl⟩⟩ := (hazardFree_eq_false_iff s).mp h
  · rw [step_of_turn ha]
    exact hostWrite_of_busy (s := s.dropTurn) hp w
  · rw [step_of_turn ha]
    refine hostRead_of_disabled (Bool.eq_false_iff.mpr fun he => ?_)
    rcases (readEnabled_iff _ _).mp he with hidle | hstatus
    · cases hp.symm.trans hidle
    · exact hl hstatus

theorem coreTurn_next (s : State) : ∃ t, coreTurn s = .next t := by
  cases hp : s.phase with
  | idle => exact ⟨s, coreTurn_of_idle hp⟩
  | busy => exact coreTurn_of_busy hp ▸ complete_next s

theorem step_of_hazardFree {s : State} (h : s.hazardFree = true) : ∃ t, step s = .next t := by
  cases ha : s.agenda with
  | nil => exact step_of_coreTurn (.inl ha) ▸ coreTurn_next s.dropTurn
  | cons u rest =>
    have hallowed : s.phase = .idle ∨ u.forbiddenInBusy = false := by
      cases hp : s.phase <;> simp_all [State.hazardFree]
    cases u with
    | read l => exact ⟨_, step_of_read (by simpa [Turn.forbiddenInBusy] using hallowed) ha⟩
    | write w => exact ⟨_, step_of_write (by simpa [Turn.forbiddenInBusy] using hallowed) ha⟩
    | reset => exact ⟨_, step_of_turn ha⟩
    | core => exact step_of_coreTurn (.inr ⟨rest, ha⟩) ▸ coreTurn_next s.dropTurn

/-- Settles O10: a step without hazard has a next state, one with a hazard is refused. -/
theorem onlyHostAccessInBusyIsRefused : Obligations.OnlyHostAccessInBusyIsRefused := by
  intro s
  rw [← hazardFree_eq_false_iff]
  cases h : s.hazardFree with
  | true =>
    obtain ⟨t, ht⟩ := step_of_hazardFree h
    simp [ht]
  | false => simp [step_of_hazard h]

/-! ### Reset -/

/-- Settles O11: the reset of the model, field by field. -/
theorem resetStepClearsInEitherPhase : Obligations.ResetStepClearsInEitherPhase := by
  intro s rest h
  have hstep : step s = .next ((s.withTurns rest s.answers).platformReset) := by
    rw [step_of_turn h, dropTurn_of_cons h, takeTurn]
  exact ⟨_, hstep, rfl, statusWord_of_idle rfl, rfl, rfl, rfl, rfl, rfl, rfl, rfl, rfl, rfl, rfl, rfl, rfl, rfl, rfl⟩

/-- Settles O12: the fields of the reset state. -/
theorem resetStateHoldsSpecValues : Obligations.ResetStateHoldsSpecValues :=
  ⟨rfl, rfl, rfl, rfl, rfl, rfl, rfl, rfl, rfl, rfl, rfl⟩

theorem runCommand_encode (i : Instr) (s : State) : runCommand (encode i) s = exec i (s.issue (encode i)) :=
  complete_of_decode (decode_encode i)

/-- Straight after reset every command writes 0 to the registers that hold 0, and no element (70_reset_and_hazards.md
R285). -/
theorem runOf_reset (i : Instr) (c : Word) : runOf i (State.reset.issue c) = .ok (State.reset.issue c) := by
  cases i <;> with_unfolding_all rfl

/-- Settles O13: each command has legal operands, all initialised, and changes nothing but CMDL. -/
theorem commandsAfterResetSucceedAndLeaveRegistersZero :
    Obligations.CommandsAfterResetSucceedAndLeaveRegistersZero := by
  intro i
  have hlegal : operandsLegal i (State.reset.issue (encode i)) = true := by cases i <;> rfl
  refine ⟨by cases i <;> rfl, encode i, ?_⟩
  rw [runCommand_encode, exec_of_run_ok hlegal (runOf_reset i _)]
  rfl

/-! ### The phase -/

/-- Only a write to CMD leaves IDLE (40_command_execution.md R121). -/
theorem eq_cmd_of_store_busy {s : State} {w : Store} (hp : s.phase = .idle) (h : (s.store w).phase = .busy) :
    ∃ c, w = .reg .cmd c := by
  cases w with
  | reg r v =>
    cases r with
    | cmd => exact ⟨v, rfl⟩
    | _ => cases hp.symm.trans h
  | _ => cases hp.symm.trans h

/-- Settles O16: of the kinds of step, the core's idle turn and a read keep the phase, a write starts from IDLE, and a
reset and a completion end in it. -/
theorem phaseChangesOnlyByIssueCompletionReset : Obligations.PhaseChangesOnlyByIssueCompletionReset := by
  intro s t hstep
  rcases step_next_cases hstep with ⟨-, hp, rfl⟩ | ⟨ha, hp, hc⟩ | ⟨l, rest, -, -, rfl⟩ | ⟨w, rest, ha, hp, rfl⟩ |
      ⟨rest, ha, rfl⟩
  · exact ⟨fun _ ht => (nomatch hp.symm.trans ht), fun hb => (nomatch hp.symm.trans hb)⟩
  · exact ⟨fun hi => (nomatch hp.symm.trans hi), fun _ _ => .inr ⟨ha, hc⟩⟩
  · exact ⟨fun hi ht => (nomatch hi.symm.trans ht), fun hb ht => (nomatch hb.symm.trans ht)⟩
  · refine ⟨fun _ ht => ?_, fun hb => (nomatch hp.symm.trans hb)⟩
    obtain ⟨c, rfl⟩ := eq_cmd_of_store_busy (s := s.dropTurn) hp ht
    exact ⟨c, rest, ha, rfl, rfl⟩
  · exact ⟨fun _ => nofun, fun _ _ => .inl ⟨rest, ha⟩⟩

/-! ### A command from issue to the last read of STATUS -/

/-- The state after `n` polls of STATUS that found a command in flight, with the turns `rest` still to come. -/
def State.polled (s : State) (n : Nat) (rest : List Turn) : State :=
  s.withTurns rest (List.replicate n (.word 0x80000000#32) ++ s.answers)

theorem State.polled_polled_one (s : State) (n : Nat) (a rest : List Turn) :
    (s.polled 1 a).polled n rest = s.polled (n + 1) rest := by
  simp [State.polled, State.withTurns, List.replicate_succ']

/-- Each poll in BUSY takes one step and records 0x80000000 (10_state.md R25). -/
theorem runSteps_polls {s : State} (hp : s.phase = .busy) (hc : s.code = .ok) (n m : Nat) {rest : List Turn}
    (h : s.agenda = List.replicate n (.read (.reg .status)) ++ rest) :
    runSteps (n + m) s = runSteps m (s.polled n rest) := by
  induction n generalizing s with
  | zero =>
    obtain rfl : s.agenda = rest := h
    rw [Nat.zero_add]
    rfl
  | succ n ih =>
    have hread : s.elementAt (.reg .status) = .word 0x80000000#32 := congrArg Datum.word (statusWord_of_busy hp hc)
    have hstep := step_of_read (.inr rfl) (h.trans (by rw [List.replicate_succ, List.cons_append]))
    rw [hread] at hstep
    have hpoll : step s = .next (s.polled 1 (List.replicate n (.read (.reg .status)) ++ rest)) := hstep
    have hrest := ih (s := s.polled 1 (List.replicate n (.read (.reg .status)) ++ rest)) hp hc rfl
    rw [Nat.add_right_comm, runSteps_succ_of_next hpoll, hrest, State.polled_polled_one]

theorem complete_idle {s t : State} (h : complete s = .next t) : t.phase = .idle := by
  cases hd : decode s.cmdl with
  | none =>
    obtain rfl := Host.Outcome.next.inj ((complete_illegal hd).symm.trans h)
    rfl
  | some i => exact (exec_idle ((complete_of_decode hd).symm.trans h)).1

/-- After the polls the core's turn is the completion. -/
theorem step_polled_core {s : State} (hp : s.phase = .busy) (n : Nat) (rest : List Turn) :
    step (s.polled n (.core :: rest)) = complete (s.polled n rest) := by
  rw [step_of_turn (t := .core) (rest := rest) rfl]
  exact coreTurn_of_busy hp

/-- Settles O17: each poll is one step that records BUSY, and the next step is the completion. -/
theorem everyCommandCompletesAfterPolling : Obligations.EveryCommandCompletesAfterPolling := by
  intro n s rest hp hc h
  obtain ⟨t, ht⟩ := complete_next (s.polled n rest)
  refine ⟨t, ht, ?_, complete_idle ht⟩
  rw [runSteps_polls hp hc n 1 h, runSteps_succ_of_next ((step_polled_core hp n rest).trans ht), runSteps_zero]

/-- Settles O18: the line's turns are the issue, the polls, the completion and a read of STATUS in IDLE. -/
theorem commandLineRunsAndReadsResult : Obligations.CommandLineRunsAndReadsResult := by
  intro i polls s rest hp h
  have hturns : s.agenda = .write (.reg .cmd (encode i)) ::
      (List.replicate polls (.read (.reg .status)) ++ .core :: .read (.reg .status) :: rest) := by
    simpa [scriptTurns, commandLines, ScriptLine.turns, waitTurns] using h
  obtain ⟨t, ht⟩ := exec_next i ((s.issue (encode i)).polled polls (.read (.reg .status) :: rest))
  obtain ⟨hidle, hagenda, -, -⟩ := exec_idle ht
  refine ⟨t, ht, ?_, statusWord_of_idle hidle⟩
  have hcomplete : complete ((s.issue (encode i)).polled polls (.read (.reg .status) :: rest)) = .next t :=
    (complete_of_decode (decode_encode i)).trans ht
  have hcore := (step_polled_core (s := s.issue (encode i)) rfl polls (.read (.reg .status) :: rest)).trans hcomplete
  have hread : step t = .next (t.withTurns rest (.word t.statusWord :: t.answers)) :=
    step_of_read (.inl hidle) hagenda
  rw [runSteps_succ_of_next (step_of_write hp hturns), runSteps_polls rfl rfl polls 2 rfl]
  exact (runSteps_succ_of_next hcore 1).trans (runSteps_succ_of_next hread 0)

end Sys2Proof.Machine
end

section
/-! A platform with several cores (20_memory.md section 6, 60_exceptions.md section 8). -/

namespace Sys2Proof.Machine

theorem stepInstance_of_next {p : Platform} {k : Nat} {s t : State} (hk : p[k]? = some s) (h : step s = .next t) :
    stepInstance k p = .next (p.set k t) := by
  rw [stepInstance, hk]
  simp only [h]

theorem stepInstance_of_refused {p : Platform} {k : Nat} {s : State} {e : Refusal} (hk : p[k]? = some s)
    (h : step s = .refused e) : stepInstance k p = .refused e := by
  rw [stepInstance, hk]
  simp only [h]

/-- A step of core `k` writes one state at `k`, the same on every platform whose core `k` is the same. -/
theorem stepInstance_eq_set {p q : Platform} {k : Nat} (h : stepInstance k p = .next q) :
    ∃ t, ∀ p' : Platform, p'[k]? = p[k]? → stepInstance k p' = .next (p'.set k t) := by
  cases hk : p[k]? with
  | none =>
    refine ⟨State.reset, fun p' hp' => ?_⟩
    rw [stepInstance, hp', List.set_eq_of_length_le (List.getElem?_eq_none_iff.mp hp')]
  | some s =>
    cases hs : step s with
    | next t => exact ⟨t, fun p' hp' => stepInstance_of_next hp' hs⟩
    | fault f => exact nomatch f
    | refused e => cases (stepInstance_of_refused hk hs).symm.trans h

/-- Settles O60: a step of core `k` is a write at `k` that depends on core `k` only, and writes at different numbers
commute. -/
theorem stepsOfDifferentCoresCommute : Obligations.StepsOfDifferentCoresCommute := by
  refine ⟨fun p k s hk => ⟨fun t ht => ⟨_, stepInstance_of_next hk ht, ?_, List.length_set, fun m hm => ?_⟩,
    fun e he => stepInstance_of_refused hk he⟩, fun p q r k l hkl hq hr => ?_⟩
  · exact List.getElem?_set_self (List.getElem?_eq_some_iff.mp hk).1
  · exact List.getElem?_set_ne hm.symm
  · obtain ⟨t, ht⟩ := stepInstance_eq_set hq
    obtain ⟨u, hu⟩ := stepInstance_eq_set hr
    obtain rfl := Host.Outcome.next.inj ((ht p rfl).symm.trans hq)
    obtain rfl := Host.Outcome.next.inj ((hu p rfl).symm.trans hr)
    have hl : (p.set k t)[l]? = p[l]? := List.getElem?_set_ne hkl
    have hk : (p.set l u)[k]? = p[k]? := List.getElem?_set_ne hkl.symm
    refine ⟨⟨_, hu _ hl, ?_⟩, fun m hm => List.getElem?_set_ne hm.symm⟩
    rw [ht _ hk, List.set_comm t u hkl]

end Sys2Proof.Machine
end

section
/-! The function layer: the packing of a block by its length and stream bits, and what follows for the two round trips
(42_bitpack.md section 2, 43_bitunpack.md section 2). -/

namespace Sys2Proof.Machine

/-! ### A byte sequence is its length and its stream bits -/

theorem byteBit_eq_getElem {q : List Byte} {j k : Nat} (hj : j < q.length) (hk : k < 8) :
    byteBit q (8 * j + k) = q[j].getLsbD k := by
  have hbyte : (8 * j + k) / 8 = j := by omega
  have hbit : (8 * j + k) % 8 = k := by omega
  rw [byteBit, hbyte, hbit, List.getD_eq_getElem _ _ hj]

theorem bytes_ext {p q : List Byte} (hlen : p.length = q.length) (h : ∀ r < 8 * p.length, byteBit p r = byteBit q r) :
    p = q := by
  refine List.ext_getElem hlen fun j hp hq => BitVec.eq_of_getLsbD_eq fun k hk => ?_
  rw [← byteBit_eq_getElem hp hk, ← byteBit_eq_getElem hq hk]
  exact h _ (by omega)

/-- A byte sequence is the packing of a block that fits exactly when it has the packing's length and stream bits
(20_memory.md R64, R65). -/
theorem pack_eq_ok_iff {b : List Word} {w : Nat} (hfits : ∀ v ∈ b, v.toNat < 2 ^ w) (q : List Byte) :
    pack b w = .ok q ↔ q.length = packedLength b.length w ∧ ∀ r < 8 * q.length, byteBit q r = blockBit b w r := by
  rw [pack_of_fits hfits, Except.ok.injEq]
  constructor
  · rintro rfl
    exact ⟨by simp, fun r hr => byteBit_packed b w _ r (by simpa using hr)⟩
  · rintro ⟨hlen, hbits⟩
    refine (bytes_ext (by simpa using hlen) fun r hr => ?_).symm
    rw [hbits r hr, byteBit_packed b w _ r (hlen ▸ hr)]

/-! ### The laws of `unpack` and `pack` -/

/-- Settles O44: `unpack` tests the length and nothing else. -/
theorem unpackFailsExactlyWhenTruncated : Obligations.UnpackFailsExactlyWhenTruncated := by
  intro p w c
  exact ⟨(unpack_error_iff p w c _).trans (and_iff_right rfl), fun h => ⟨_, unpack_of_le h, by simp⟩,
    fun k h => (unpack_error_cases h).1⟩

/-- Settles O43: `unpack` gives either block back from the one packing. -/
theorem packIsInjective : Obligations.PackIsInjective := by
  intro b c w q _ hlen hb hc
  have hc' := unpack_of_pack hc
  rw [← hlen, unpack_of_pack hb] at hc'
  exact Except.ok.inj hc'

/-- The needed stream bits of a buffer are those of the block unpacked from it (43_bitunpack.md R181). -/
theorem blockBit_of_unpack {p : List Byte} {w c r : Nat} {b : List Word} (hw : w ≤ 32) (h : unpack p w c = .ok b)
    (hr : r < c * w) : blockBit b w r = byteBit p r := by
  have hpos : 0 < w := Nat.pos_of_mul_pos_left (Nat.zero_lt_of_lt hr)
  have hi : r / w < c := Nat.div_lt_of_lt_mul (Nat.mul_comm c w ▸ hr)
  have hk : r % w < w := Nat.mod_lt r hpos
  have hlen : b.length = c := by
    obtain ⟨-, rfl⟩ := unpack_ok_cases h
    simp
  have hsplit : r / w * w + r % w = r := Nat.div_add_mod' r w
  calc blockBit b w r = blockBit b w (r / w * w + r % w) := by rw [hsplit]
    _ = (fieldAt p w (r / w)).getLsbD (r % w) := by rw [blockBit_element b w _ _ (hlen ▸ hi) hk, unpack_getD h hi]
    _ = byteBit p r := by
      rw [getLsbD_fieldAt p w _ _ (hk.trans_le hw), decide_eq_true hk, Bool.true_and, hsplit]

/-- Settles O42: an unpacked block fits and has the buffer's needed bits, so its packing is the buffer exactly when
the length is the need and the rest of the bits are a packing's padding. -/
theorem unpackThenPackGivesTheBytesBack : Obligations.UnpackThenPackGivesTheBytesBack := by
  intro p w c b hw h
  have hfits := unpack_lt_two_pow h
  have hlen : b.length = c := by
    obtain ⟨-, rfl⟩ := unpack_ok_cases h
    simp
  refine ⟨⟨_, pack_of_fits hfits⟩, (pack_eq_ok_iff hfits p).trans ?_⟩
  rw [hlen]
  refine and_congr_right fun _ => forall_congr' fun r => ?_
  rcases Nat.lt_or_ge r (c * w) with hr | hr
  · simp [blockBit_of_unpack hw h hr, hr.not_ge]
  · simp [blockBit_padding b w r (hlen ▸ hr), hr]

end Sys2Proof.Machine
end

section
/-! The reduction tree computes `selectWidth` (41_width_select.md R147). -/

namespace Sys2Proof.Machine

/-- The OR of all the words of a list: what the tree's root holds (41_width_select.md R144, R147). -/
def orAll (l : List Word) : Word := l.foldr (fun v r => v ||| r) 0

theorem orAll_orLevel (l : List Word) : orAll (orLevel l) = orAll l := by
  induction l using orLevel.induct with
  | case1 a b rest ih =>
    simp only [orAll, orLevel, List.foldr_cons] at ih ⊢
    rw [ih, BitVec.or_assoc]
  | case2 l hl => rw [orLevel]; exact hl

theorem length_orLevel (l : List Word) : (orLevel l).length = (l.length + 1) / 2 := by
  induction l using orLevel.induct with
  | case1 a b rest ih =>
    simp only [orLevel, List.length_cons, ih]
    omega
  | case2 l hl =>
    match l, hl with
    | [], _ => rfl
    | [a], _ => simp [orLevel]
    | a :: b :: rest, hl => exact absurd rfl (hl a b rest)

/-- `n` levels reduce `2 ^ n` words to their OR. -/
theorem orLevels_eq_orAll {n : Nat} {l : List Word} (h : l.length = 2 ^ n) : orLevels n l = [orAll l] := by
  induction n generalizing l with
  | zero =>
    obtain ⟨v, rfl⟩ := List.length_eq_one_iff.mp h
    simp [orLevels, orAll]
  | succ n ih =>
    rw [orLevels, ih, orAll_orLevel]
    rw [length_orLevel, h, Nat.pow_succ]
    omega

theorem priorityEncode_le_iff (v : Word) (n w : Nat) :
    priorityEncode v n ≤ w ↔ ∀ k, w ≤ k → k < n → v.getLsbD k = false := by
  induction n with
  | zero => simp [priorityEncode]
  | succ n ih =>
    rw [priorityEncode]
    split
    · next hbit =>
      refine ⟨fun hle k hwk hk => by omega, fun h => Nat.lt_of_not_le fun hwn => ?_⟩
      exact Bool.false_ne_true ((h n hwn (Nat.lt_succ_self n)).symm.trans hbit)
    · next hbit =>
      rw [ih]
      refine ⟨fun h k hwk hk => ?_, fun h k hwk hk => h k hwk (by omega)⟩
      rcases Nat.lt_succ_iff_lt_or_eq.mp hk with hlt | rfl
      · exact h k hwk hlt
      · exact Bool.eq_false_iff.mpr hbit

/-- The encoder of all 32 bits gives the bit length (41_width_select.md R147). -/
theorem priorityEncode_32 (v : Word) : priorityEncode v 32 = bitlen v.toNat := by
  refine eq_of_forall_ge_iff fun w => ?_
  rw [priorityEncode_le_iff, bitlen_le_iff]
  refine ⟨fun h => Nat.lt_pow_two_of_testBit _ fun k hk => ?_, fun h k hk _ => ?_⟩
  · rcases Nat.lt_or_ge k 32 with hlt | hge
    · exact h k hk hlt
    · exact BitVec.getLsbD_of_ge v k hge
  · exact Nat.testBit_lt_two_pow (h.trans_le (Nat.pow_le_pow_right Nat.two_pos hk))

/-- A leaf is a lane of the block or the identity 0, so the leaves and the block fit the same widths. -/
theorem treeLeaves_fit_iff {s : State} (h : s.count.toNat ≤ Config.NMAX) (w : Nat) :
    (∀ v ∈ treeLeaves s, v.toNat < 2 ^ w) ↔ ∀ v ∈ s.block, v.toNat < 2 ^ w := by
  simp only [treeLeaves, State.block, List.forall_mem_map, List.mem_range]
  refine ⟨fun hfits i hi => ?_, fun hfits i _ => ?_⟩
  · simpa [hi] using hfits i (hi.trans_le h)
  · split
    · next hi => exact hfits i hi
    · exact Nat.two_pow_pos w

/-- Settles O53: the root is the OR of the leaves, whose bit length is at most `w` exactly when every lane fits `w`
bits. -/
theorem reductionTreeComputesSelectWidth : Obligations.ReductionTreeComputesSelectWidth := by
  intro s h
  have hroot : orLevels 8 (treeLeaves s) = [orAll (treeLeaves s)] := orLevels_eq_orAll (by simp [treeLeaves])
  rw [treeWidth, hroot, List.headD_cons, priorityEncode_32]
  refine (selectWidth_eq_of_le_iff fun w => ?_).symm
  rw [orAll, bitlen_foldr_or_le_iff, treeLeaves_fit_iff h]

end Sys2Proof.Machine
end

section
/-! The shifter computes `pack` (42_bitpack.md R168). Its registers stand for one number, the emitted bytes below the
accumulator; emitting a byte keeps the number, feeding an element puts it above the bits so far. -/

namespace Sys2Proof.Machine

theorem radixValue_append {m : Nat} (w : Nat) (a b : List (BitVec m)) :
    radixValue w (a ++ b) = radixValue w a + 2 ^ (w * a.length) * radixValue w b := by
  induction a with
  | nil => simp [radixValue]
  | cons v a ih =>
    have hcons : ∀ l : List (BitVec m), radixValue w (v :: l) = v.toNat + 2 ^ w * radixValue w l := fun _ => rfl
    rw [List.cons_append, hcons, hcons, ih, List.length_cons, Nat.mul_succ, Nat.pow_add]
    ring

theorem radixValue_concat {m : Nat} (w : Nat) (a : List (BitVec m)) (v : BitVec m) :
    radixValue w (a ++ [v]) = radixValue w a + 2 ^ (w * a.length) * v.toNat := by
  rw [radixValue_append]
  simp [radixValue]

/-- A byte sequence of the packing's length that stands for the block's number is the packing (20_memory.md R66). -/
theorem pack_of_radixValue {b : List Word} {w : Nat} {q : List Byte} (hfits : ∀ v ∈ b, v.toNat < 2 ^ w)
    (hlen : q.length = packedLength b.length w) (hvalue : radixValue 8 q = radixValue w b) : pack b w = .ok q := by
  refine (pack_eq_ok_iff hfits q).mpr ⟨hlen, fun r hr => ?_⟩
  rw [← testBit_radixValue_block hfits, ← hvalue, testBit_radixValue_bytes, decide_eq_true hr, Bool.true_and]

/-- The shifter holds the number `x` of `n` bits. -/
structure Shifter.Holds (r : Shifter) (n x : Nat) : Prop where
  acc_lt : r.acc.toNat < 2 ^ r.fill
  bits : 8 * r.out.length + r.fill = n
  value : radixValue 8 r.out + 2 ^ (8 * r.out.length) * r.acc.toNat = x

theorem Shifter.holds_start : Shifter.start.Holds 0 0 := ⟨Nat.zero_lt_one, rfl, rfl⟩

/-- Emitting the low byte of the accumulator keeps the number. -/
theorem Shifter.Holds.emitByte {r : Shifter} {n x : Nat} (h : r.Holds n x) (hfill : 8 ≤ r.fill) :
    Shifter.Holds { acc := r.acc >>> 8, fill := r.fill - 8, out := r.out ++ [r.acc.setWidth 8] } n x := by
  obtain ⟨hacc, hbits, hvalue⟩ := h
  have hpow : 2 ^ r.fill = 2 ^ 8 * 2 ^ (r.fill - 8) := by rw [← Nat.pow_add, Nat.add_sub_cancel' hfill]
  refine ⟨?_, ?_, ?_⟩
  · rw [BitVec.toNat_ushiftRight, Nat.shiftRight_eq_div_pow]
    exact Nat.div_lt_of_lt_mul (hacc.trans_eq hpow)
  · rw [List.length_append, List.length_singleton]
    dsimp only
    omega
  · rw [radixValue_concat, List.length_append, List.length_singleton, BitVec.toNat_ushiftRight,
      Nat.shiftRight_eq_div_pow, BitVec.toNat_setWidth, Nat.mul_succ, Nat.pow_add, Nat.mul_assoc, Nat.add_assoc,
      ← Nat.mul_add, Nat.mod_add_div]
    exact hvalue

/-- "while fill >= 8" keeps the number, and enough rounds reach the end of the loop (log 17). -/
theorem Shifter.Holds.emit {k n x : Nat} {r : Shifter} (h : r.Holds n x) (hfill : r.fill < 8 * (k + 1)) :
    (Shifter.emit k r).Holds n x ∧ (Shifter.emit k r).fill < 8 := by
  induction k generalizing r with
  | zero => exact ⟨h, hfill⟩
  | succ k ih =>
    rw [Shifter.emit]
    split
    · next hge => exact ih (h.emitByte hge) (by dsimp only; omega)
    · next hlt => exact ⟨h, Nat.lt_of_not_le hlt⟩

/-- What enters the 39-bit accumulator above the bits held is added above them, where there is room for it: the step
of the shifter and of the deserializer (42_bitpack.md R168, 43_bitunpack.md R188). -/
theorem toNat_acc_or {m fill w : Nat} {acc : BitVec 39} {v : BitVec m} (hacc : acc.toNat < 2 ^ fill)
    (hv : v.toNat < 2 ^ w) (hroom : fill + w ≤ 39) :
    (acc ||| (v.setWidth 39 <<< fill)).toNat = acc.toNat + 2 ^ fill * v.toNat := by
  have hshift : v.toNat * 2 ^ fill < 2 ^ 39 := by
    calc v.toNat * 2 ^ fill < 2 ^ w * 2 ^ fill := Nat.mul_lt_mul_of_pos_right hv (Nat.two_pow_pos fill)
      _ = 2 ^ (w + fill) := (Nat.pow_add 2 w fill).symm
      _ ≤ 2 ^ 39 := Nat.pow_le_pow_right Nat.two_pos (by omega)
  have hword : v.toNat < 2 ^ 39 := hv.trans_le (Nat.pow_le_pow_right Nat.two_pos (by omega))
  rw [BitVec.toNat_or, BitVec.toNat_shiftLeft, BitVec.toNat_setWidth, Nat.mod_eq_of_lt hword, Nat.shiftLeft_eq,
    Nat.mod_eq_of_lt hshift, Nat.mul_comm, Nat.or_comm, ← Nat.two_pow_add_eq_or_of_lt hacc, Nat.add_comm]

/-- Feeding an element puts it above the number. -/
theorem Shifter.Holds.feed {r : Shifter} {w n x : Nat} {v : Word} (h : r.Holds n x) (hfill : r.fill < 8)
    (hv : v.toNat < 2 ^ w) (hw : w ≤ 32) :
    (r.feed w v).Holds (n + w) (x + 2 ^ n * v.toNat) ∧ (r.feed w v).fill < 8 := by
  obtain ⟨hacc, hbits, hvalue⟩ := h
  have htoNat := toNat_acc_or hacc hv (show r.fill + w ≤ 39 by omega)
  refine Shifter.Holds.emit ⟨?_, ?_, ?_⟩ (by dsimp only; omega)
  · rw [htoNat, Nat.pow_add]
    calc r.acc.toNat + 2 ^ r.fill * v.toNat < 2 ^ r.fill + 2 ^ r.fill * v.toNat := Nat.add_lt_add_right hacc _
      _ = 2 ^ r.fill * (v.toNat + 1) := by ring
      _ ≤ 2 ^ r.fill * 2 ^ w := Nat.mul_le_mul_left _ hv
  · dsimp only
    omega
  · rw [htoNat, ← hbits, ← hvalue, Nat.pow_add]
    ring

/-- The shifter holds the number of the elements fed. -/
theorem Shifter.holds_foldl {b : List Word} {w : Nat} (hw : w ≤ 32) (hfits : ∀ v ∈ b, v.toNat < 2 ^ w) :
    (b.foldl (Shifter.feed w) Shifter.start).Holds (w * b.length) (radixValue w b) ∧
      (b.foldl (Shifter.feed w) Shifter.start).fill < 8 := by
  induction b using List.reverseRecOn with
  | nil => exact ⟨Shifter.holds_start, Nat.zero_lt_succ 7⟩
  | append_singleton b v ih =>
    obtain ⟨hb, hv⟩ := List.forall_mem_append.mp hfits
    obtain ⟨hholds, hfill⟩ := ih hb
    rw [List.foldl_append, radixValue_concat, List.length_append, List.length_singleton, Nat.mul_succ]
    exact hholds.feed hfill (hv v List.mem_cons_self) hw

/-- The flush emits the bits left over with zero padding: the bytes stand for the number (42_bitpack.md R168). -/
theorem Shifter.Holds.flush {r : Shifter} {n x : Nat} (h : r.Holds n x) (hfill : r.fill < 8) :
    r.flush.length = (n + 7) / 8 ∧ radixValue 8 r.flush = x := by
  obtain ⟨hacc, hbits, hvalue⟩ := h
  rw [Shifter.flush]
  split
  · have hbyte : r.acc.toNat < 2 ^ 8 := hacc.trans_le (Nat.pow_le_pow_right Nat.two_pos hfill.le)
    rw [radixValue_concat, List.length_append, List.length_singleton, BitVec.toNat_setWidth, Nat.mod_eq_of_lt hbyte]
    exact ⟨by omega, hvalue⟩
  · next hempty =>
    have hzero : r.fill = 0 := Nat.eq_zero_of_not_pos hempty
    rw [hzero, Nat.pow_zero, Nat.lt_one_iff] at hacc
    rw [hacc] at hvalue
    exact ⟨by omega, hvalue⟩

theorem pack_eq_shifterPack {b : List Word} {w : Nat} (hw : w ≤ 32) (hfits : ∀ v ∈ b, v.toNat < 2 ^ w) :
    pack b w = .ok (shifterPack b w) := by
  obtain ⟨hholds, hfill⟩ := Shifter.holds_foldl hw hfits
  obtain ⟨hlen, hvalue⟩ := hholds.flush hfill
  exact pack_of_radixValue hfits (by rw [packedLength_eq, Nat.mul_comm]; exact hlen) hvalue

/-- Settles O54: the emitted bytes have the packing's length and stand for the block's number. -/
theorem shifterComputesPack : Obligations.ShifterComputesPack := fun _ _ => pack_eq_shifterPack

end Sys2Proof.Machine
end

section
/-! The two passes of the encoder compute `encode` (44_pfor_codec.md R211). -/

namespace Sys2Proof.Machine

/-! ### Pass 1: the histogram -/

/-- The elements that exceed `w` bits are those of bin `w + 1` and those that exceed `w + 1` bits. -/
theorem histogram_add_excess (b : List Word) (w : Nat) : histogram b (w + 1) + excess b (w + 1) = excess b w := by
  have hsplit : ∀ v : Word, (2 ^ w ≤ v.toNat ↔ bitlen v.toNat = w + 1 ∨ 2 ^ (w + 1) ≤ v.toNat) ∧
      ¬ (bitlen v.toNat = w + 1 ∧ 2 ^ (w + 1) ≤ v.toNat) := by
    intro v
    rw [← lt_bitlen_iff, ← lt_bitlen_iff]
    omega
  induction b with
  | nil => rfl
  | cons v b ih =>
    obtain ⟨hor, hand⟩ := hsplit v
    simp only [histogram, excess, List.countP_cons, exceeds, decide_eq_true_eq, hor] at ih ⊢
    split_ifs <;> omega

/-- The sum of `n` bins above `w` counts the elements that exceed `w` bits and not `w + n` (44_pfor_codec.md R211). -/
theorem sum_histogram_add_excess (b : List Word) (w n : Nat) :
    ((List.range' (w + 1) n).map (histogram b)).sum + excess b (w + n) = excess b w := by
  induction n generalizing w with
  | zero => simp
  | succ n ih =>
    rw [List.range'_succ, List.map_cons, List.sum_cons, Nat.add_assoc, Nat.add_comm n 1, ← Nat.add_assoc w, ih,
      histogram_add_excess]

/-- The suffix sums of the histogram are the counts of outliers. -/
theorem suffixExcess_eq_excess (b : List Word) {w : Nat} (hw : w ≤ 32) : suffixExcess b w = excess b w := by
  have hsum := sum_histogram_add_excess b w (32 - w)
  rwa [Nat.add_sub_cancel' hw, excess_32, Nat.add_zero] at hsum

/-- Pass 1 chooses the width that `encode` chooses. -/
theorem find?_suffixExcess (b : List Word) (budget : Int) :
    (List.range (Config.WMAX + 1)).find? (fun w => decide ((suffixExcess b w : Int) ≤ budget)) =
      chooseWidth b budget := by
  refine List.find?_congr fun w hw => ?_
  rw [suffixExcess_eq_excess b (Nat.lt_succ_iff.mp (List.mem_range.mp hw))]

/-! ### Pass 2: one lane after another -/

/-- Each lane feeds the base element to the shifter and lists an outlier. -/
theorem foldl_encoder_feed (b : List Word) (w : Nat) (r : Encoder) :
    b.foldl (Encoder.feed w) r =
      { shifter := (baseBlock b w).foldl (Shifter.feed w) r.shifter
        lane := r.lane + b.length
        entries := r.entries ++ outliersFrom w r.lane b } := by
  induction b generalizing r with
  | nil => simp [baseBlock, outliersFrom]
  | cons v b ih =>
    have hexceeds : w < bitlen v.toNat ↔ exceeds w v = true := (lt_bitlen_iff _ _).trans (exceeds_iff w v).symm
    rw [List.foldl_cons, ih, Encoder.feed, outliersFrom]
    by_cases hv : exceeds w v = true
    · simp [hexceeds, hv, baseBlock, Nat.add_assoc, Nat.add_comm 1]
    · simp [hexceeds, hv, baseBlock, Nat.add_assoc, Nat.add_comm 1]

/-- Settles O56: pass 1 chooses the same width, and pass 2 shifts out the base block and lists the outliers. -/
theorem twoPassDatapathComputesEncode : Obligations.TwoPassDatapathComputesEncode := by
  intro b budget
  rw [datapathEncode, find?_suffixExcess, encodeBlock]
  cases hw : chooseWidth b budget with
  | none => rfl
  | some w =>
    have hw32 : w ≤ 32 := ((chooseWidth_eq_some_iff b budget w).mp hw).1
    dsimp only
    rw [foldl_encoder_feed, pack_eq_shifterPack hw32 (baseBlock_fits b w)]
    rfl

end Sys2Proof.Machine
end

section
/-! The deserializer computes `unpack` (43_bitunpack.md R188). Its accumulator holds the stream bits between those
already taken and the byte loaded next. -/

namespace Sys2Proof.Machine

/-- The deserializer has taken the first `n` stream bits and holds those that follow, up to a byte boundary. -/
structure Deserializer.Holds (p : List Byte) (r : Deserializer) (n : Nat) : Prop where
  acc : r.acc.toNat = natOfBits (fun k => byteBit p (n + k)) r.fill
  bits : 8 * r.next = n + r.fill

theorem Deserializer.holds_start (p : List Byte) : Deserializer.Holds p .start 0 := ⟨rfl, rfl⟩

/-- A byte loaded above the bits held, which leave it room. -/
theorem Deserializer.Holds.loadByte {p : List Byte} {r : Deserializer} {n : Nat} (h : Deserializer.Holds p r n)
    (hfill : r.fill < 32) :
    Deserializer.Holds p
      { acc := r.acc ||| ((p.getD r.next 0).setWidth 39 <<< r.fill), fill := r.fill + 8, next := r.next + 1 } n := by
  obtain ⟨hacc, hbits⟩ := h
  refine ⟨?_, by dsimp only; omega⟩
  have hlt : r.acc.toNat < 2 ^ r.fill := hacc ▸ natOfBits_lt _ _
  have hbyte : (p.getD r.next 0).toNat = natOfBits (fun k => byteBit p (n + (r.fill + k))) 8 := by
    rw [← natOfBits_byteBit, hbits]
    simp only [Nat.add_assoc]
  rw [natOfBits_add, ← hacc, ← hbyte]
  exact toNat_acc_or hlt (p.getD r.next 0).isLt (by omega)

/-- "while fill < w" reaches `w` bits within 4 loads (log 17), and holds less than a byte more. -/
theorem Deserializer.Holds.load {p : List Byte} {w k n : Nat} {r : Deserializer} (h : Deserializer.Holds p r n)
    (hw : w ≤ 32) (hloads : w ≤ 8 * k + r.fill) (hfill : r.fill < w + 8) :
    Deserializer.Holds p (Deserializer.load p w k r) n ∧ w ≤ (Deserializer.load p w k r).fill ∧
      (Deserializer.load p w k r).fill < w + 8 := by
  induction k generalizing r with
  | zero => exact ⟨h, (Nat.zero_add r.fill) ▸ hloads, hfill⟩
  | succ k ih =>
    rw [Deserializer.load]
    split
    · next hlt => exact ih (h.loadByte (by omega)) (by dsimp only; omega) (by dsimp only; omega)
    · next hge => exact ⟨h, Nat.le_of_not_lt hge, hfill⟩

/-- The bits held are the next element and, above it, those held after it is taken. -/
theorem Deserializer.Holds.acc_split {p : List Byte} {w n : Nat} {r : Deserializer} (h : Deserializer.Holds p r n)
    (hfill : w ≤ r.fill) :
    r.acc.toNat = natOfBits (fun k => byteBit p (n + k)) w +
      2 ^ w * natOfBits (fun k => byteBit p (n + w + k)) (r.fill - w) := by
  have hadd := natOfBits_add (fun k => byteBit p (n + k)) w (r.fill - w)
  rw [Nat.add_sub_cancel' hfill, ← h.acc] at hadd
  simpa only [Nat.add_assoc] using hadd

theorem Deserializer.Holds.field {p : List Byte} {w i : Nat} {r : Deserializer} (h : Deserializer.Holds p r (i * w))
    (hfill : w ≤ r.fill) : r.field w = fieldAt p w i := by
  rw [Deserializer.field, h.acc_split hfill, Nat.add_mul_mod_self_left, Nat.mod_eq_of_lt (natOfBits_lt _ w)]
  rfl

theorem Deserializer.Holds.drop {p : List Byte} {w n : Nat} {r : Deserializer} (h : Deserializer.Holds p r n)
    (hfill : w ≤ r.fill) : Deserializer.Holds p (r.drop w) (n + w) := by
  refine ⟨?_, ?_⟩
  · rw [Deserializer.drop, BitVec.toNat_ushiftRight, Nat.shiftRight_eq_div_pow, h.acc_split hfill,
      Nat.add_mul_div_left _ _ (Nat.two_pow_pos w), Nat.div_eq_of_lt (natOfBits_lt _ w), Nat.zero_add]
  · exact h.bits.trans (show n + r.fill = n + w + (r.fill - w) by omega)

/-- From element `i` on the deserializer produces the fields of the stream. -/
theorem deserialize_eq_map_fieldAt {p : List Byte} {w c i : Nat} {r : Deserializer} (hw : w ≤ 32)
    (h : Deserializer.Holds p r (i * w)) (hfill : r.fill < 8) :
    deserialize p w c r = (List.range' i c).map (fieldAt p w) := by
  induction c generalizing i r with
  | zero => rfl
  | succ c ih =>
    obtain ⟨hload, hge, hlt⟩ := h.load (k := 4) hw (by omega) (by omega)
    have hdrop := hload.drop hge
    rw [← Nat.succ_mul] at hdrop
    rw [deserialize, List.range'_succ, List.map_cons, hload.field hge, ih hdrop (Nat.sub_lt_left_of_lt_add hge hlt)]

/-- Settles O55: each element is the field at its place in the stream. -/
theorem deserializerComputesUnpack : Obligations.DeserializerComputesUnpack := by
  intro p w c hw hlen
  have hstart : Deserializer.Holds p .start (0 * w) := (Nat.zero_mul w).symm ▸ Deserializer.holds_start p
  rw [unpack_of_le hlen, deserializerUnpack, deserialize_eq_map_fieldAt hw hstart (by decide), List.range_eq_range']

end Sys2Proof.Machine
end

section
/-! The overlay mux equals the sequential overwrite (44_pfor_codec.md R225). -/

namespace Sys2Proof.Machine

/-- A later entry for the lane wins over an earlier one. -/
theorem lastHit_cons (e : Word × Word) (x : List (Word × Word)) (i : Nat) :
    lastHit (e :: x) i = (lastHit x i).or (if e.1.toNat = i then some e.2 else none) := by
  rw [lastHit, lastHit, List.filter_cons]
  by_cases h : e.1.toNat = i
  · rw [if_pos (decide_eq_true h), if_pos h, List.getLast?_cons]
    cases (x.filter _).getLast? <;> rfl
  · rw [if_neg (mt of_decide_eq_true h), if_neg h, Option.or_none]

theorem overlayMux_nil (base : List Word) : overlayMux base [] = base :=
  List.ext_getElem? fun i => by simp [overlayMux, lastHit]

/-- Overwriting with the first entry and then selecting among the rest is selecting among all. -/
theorem overlayMux_cons (base : List Word) (e : Word × Word) (x : List (Word × Word)) :
    overlayMux base (e :: x) = overlayMux (base.set e.1.toNat e.2) x := by
  refine List.ext_getElem? fun i => ?_
  rw [overlayMux, overlayMux, List.getElem?_mapIdx, List.getElem?_mapIdx, lastHit_cons, List.getElem?_set]
  by_cases h : e.1.toNat = i
  · subst h
    cases lastHit x e.1.toNat <;> by_cases hi : e.1.toNat < base.length <;> simp [hi]
  · simp [h]

/-- The range check of all entries at once and the mux give the answer of the overlay in list order. -/
theorem overlay_eq_datapathOverlay (count : Nat) (base : List Word) (x : List (Word × Word)) :
    overlay count base x = datapathOverlay count base x := by
  induction x generalizing base with
  | nil => rw [overlay, datapathOverlay, overlayMux_nil]; rfl
  | cons e x ih =>
    rw [overlay, datapathOverlay, List.any_cons, overlayMux_cons]
    by_cases h : count ≤ e.1.toNat
    · simp [h]
    · simp [h, ih, datapathOverlay]

/-- Settles O57: each entry is checked and overwrites its lane, and the last one that names a lane stays. -/
theorem overlayMuxEqualsSequentialOverwrite : Obligations.OverlayMuxEqualsSequentialOverwrite :=
  fun base x => overlay_eq_datapathOverlay base.length base x

end Sys2Proof.Machine
end

section
/-! The frame parses back (30_encoding.md section 6). -/

namespace Sys2Proof.Machine

/-! ### A field -/

@[simp] theorem length_littleEndian (v : Word) : (littleEndian v).length = 4 := rfl

/-- The four bytes of a word make up the word. -/
theorem append_extractLsb' (v : Word) :
    v.extractLsb' 24 8 ++ v.extractLsb' 16 8 ++ v.extractLsb' 8 8 ++ v.extractLsb' 0 8 = v := by
  rw [BitVec.extractLsb'_append_extractLsb'_eq_extractLsb' (by rfl),
    BitVec.extractLsb'_append_extractLsb'_eq_extractLsb' (by rfl),
    BitVec.extractLsb'_append_extractLsb'_eq_extractLsb' (by rfl)]
  exact BitVec.extractLsb'_eq_self

theorem takeField_littleEndian (v : Word) (q : List Byte) : takeField (littleEndian v ++ q) = some (v, q) := by
  have h : takeField (littleEndian v ++ q) =
      some (v.extractLsb' 24 8 ++ v.extractLsb' 16 8 ++ v.extractLsb' 8 8 ++ v.extractLsb' 0 8, q) := rfl
  rw [h, append_extractLsb']

theorem takeField_of_short {q : List Byte} (h : q.length < 4) : takeField q = none := by
  match q, h with
  | [], _ => rfl
  | [_], _ => rfl
  | [_, _], _ => rfl
  | [_, _, _], _ => rfl

theorem length_of_takeField {q q' : List Byte} {v : Word} (h : takeField q = some (v, q')) :
    q.length = q'.length + 4 := by
  unfold takeField at h
  split at h
  · obtain ⟨-, rfl⟩ := Prod.mk.inj (Option.some.inj h)
    rfl
  · cases h

/-! ### The entries -/

/-- The eight bytes of an entry: position, then value (30_encoding.md R108). -/
def entryBytes (x : Word × Word) : List Byte := littleEndian x.1 ++ littleEndian x.2

theorem length_flatMap_entryBytes (x : List (Word × Word)) : (x.flatMap entryBytes).length = 8 * x.length := by
  induction x with
  | nil => rfl
  | cons e x ih =>
    rw [List.flatMap_cons, List.length_append, ih, entryBytes, List.length_append, List.length_cons]
    simp only [length_littleEndian]
    omega

theorem takeEntries_entryBytes (x : List (Word × Word)) (q : List Byte) :
    takeEntries x.length (x.flatMap entryBytes ++ q) = some (x, q) := by
  induction x with
  | nil => rfl
  | cons e x ih =>
    rw [List.flatMap_cons, entryBytes, List.length_cons, takeEntries, List.append_assoc, List.append_assoc,
      takeField_littleEndian]
    simp only [takeField_littleEndian, ih, Option.map_some]

/-- A frame that ends inside an entry is refused (30_encoding.md R110). -/
theorem takeEntries_of_short {n : Nat} {q : List Byte} (h : q.length < 8 * n) : takeEntries n q = none := by
  induction n generalizing q with
  | zero => omega
  | succ n ih =>
    rw [takeEntries]
    cases hp : takeField q with
    | none => rfl
    | some r =>
      obtain ⟨p, q1⟩ := r
      cases hv : takeField q1 with
      | none => simp only [hv]
      | some r =>
        obtain ⟨v, q2⟩ := r
        have h1 := length_of_takeField hp
        have h2 := length_of_takeField hv
        simp only [hv, ih (show q2.length < 8 * n by omega), Option.map_none]

/-! ### The frame -/

theorem frameBytes_eq (e : EncodedBlock) :
    frameBytes e = BitVec.ofNat 8 e.baseWidth ::
      (littleEndian (BitVec.ofNat 32 e.exceptions.length) ++ (e.exceptions.flatMap entryBytes ++ e.packed)) := rfl

theorem frameParse_of_width {w : Byte} (hw : 32 < w.toNat) (q : List Byte) : frameParse (w :: q) = none := by
  rw [frameParse, if_pos hw]

theorem frameParse_of_shortHeader (w : Byte) {q : List Byte} (h : q.length < 4) : frameParse (w :: q) = none := by
  rw [frameParse, takeField_of_short h]
  split <;> rfl

/-- Behind the base width and the count stand the entries and the packed bytes. -/
theorem frameParse_of_header {w : Byte} (hw : w.toNat ≤ 32) (n : Word) (q : List Byte) :
    frameParse (w :: (littleEndian n ++ q)) =
      (takeEntries n.toNat q).map (fun r => { baseWidth := w.toNat, packed := r.2, exceptions := r.1 }) := by
  rw [frameParse, if_neg (Nat.not_lt.mpr hw), takeField_littleEndian]

/-- Settles O58: each field is read back and the bytes behind it are left; a cut leaves too few bytes for the field it
falls in. -/
theorem frameParsesBack : Obligations.FrameParsesBack := by
  intro e hwidth hcount
  have hw : (BitVec.ofNat 8 e.baseWidth).toNat = e.baseWidth := Nat.mod_eq_of_lt (by omega)
  have hn : (BitVec.ofNat 32 e.exceptions.length).toNat = e.exceptions.length := Nat.mod_eq_of_lt hcount
  refine ⟨?_, ?_, fun n hlt => ?_, fun w rest hbig => frameParse_of_width hbig rest⟩
  · rw [frameBytes_eq, List.length_cons, List.length_append, List.length_append, length_flatMap_entryBytes,
      length_littleEndian]
    omega
  · rw [frameBytes_eq, frameParse_of_header (hw.trans_le hwidth), hn, takeEntries_entryBytes, Option.map_some, hw]
  · rw [frameBytes_eq]
    rcases n with _ | n
    · rfl
    · rw [List.take_succ_cons]
      rcases Nat.lt_or_ge n 4 with hn4 | hn4
      · refine frameParse_of_shortHeader _ ?_
        rw [List.length_take]
        omega
      · rw [List.take_append, List.take_of_length_le (by simpa using hn4), length_littleEndian,
          frameParse_of_header (hw.trans_le hwidth), takeEntries_of_short, Option.map_none]
        rw [hn, List.length_take]
        omega

end Sys2Proof.Machine
end

section
/-! What counts as written after each operation (70_reset_and_hazards.md section 2, log 21), and the host write
(10_state.md section 8). -/

namespace Sys2Proof.Machine

/-! ### One buffer -/

section
variable {α : Type}

theorem written_put (k : Nat) (v : α) (m : Cells α) (marks : List Nat) (j : Nat) :
    written (cellPut k v m) (unmark k marks) j = (written m marks j || decide (j = k)) := by
  by_cases h : j = k
  · subst h
    simp [written]
  · simp [written, cellFind_put_other h, h]

theorem isSome_cellFind_putFront (vs : List α) (m : Cells α) (k : Nat) :
    (cellFind k (cellPutFront vs m)).isSome = (decide (k < vs.length) || (cellFind k m).isSome) := by
  rw [cellFind_putFront]
  by_cases h : k < vs.length
  · simp [h]
  · simp [h]

/-- A command's range write counts as written. -/
theorem written_putFront (vs : List α) (m : Cells α) (marks : List Nat) (k : Nat) :
    written (cellPutFront vs m) (marksFrom vs.length marks) k = (written m marks k || decide (k < vs.length)) := by
  rw [written, written, isSome_cellFind_putFront]
  by_cases h : k < vs.length
  · simp [h, h.not_ge]
  · simp [h, Nat.le_of_not_lt h]

/-- What a failed command leaves does not. -/
theorem written_putFront_markFront {n : Nat} (vs : List α) (hn : vs.length = n) (m : Cells α) (marks : List Nat)
    (k : Nat) : written (cellPutFront vs m) (markFront n marks) k = (written m marks k && !decide (k < n)) := by
  rw [written, written, isSome_cellFind_putFront, hn]
  by_cases h : k < n
  · simp [h]
  · simp [h]

end

/-! ### The host write -/

theorem State.store_lost (s : State) (w : Store) : (s.store w).lost = s.lost.clear w.target := by
  cases w with
  | reg r v => cases r <;> rfl
  | _ => rfl

theorem State.elementAt_store_target (s : State) {w : Store} (hcmd : w.target ≠ .reg .cmd)
    (hstatus : w.target ≠ .reg .status) : (s.store w).elementAt w.target = w.datum := by
  cases w with
  | reg r v =>
    cases r with
    | cmd => exact absurd rfl hcmd
    | status => exact absurd rfl hstatus
    | _ => rfl
  | _ =>
    simp [State.store, State.elementAt, Store.target, Store.datum, State.laneAt, State.byteAt, State.posAt, State.valAt]

/-- A write of one register is seen in no other one; a write to CMD, the issue, is seen in STATUS. -/
theorem State.regValue_store_other (s : State) {r q : Reg} (v : Word) (hcmd : r ≠ .cmd) (h : q ≠ r) :
    (s.store (.reg r v)).regValue q = s.regValue q := by
  cases r with
  | cmd => exact absurd rfl hcmd
  | status => rfl
  | _ => cases q <;> trivial

theorem State.elementAt_store_other (s : State) {w : Store} {l : Loc} (hcmd : w.target ≠ .reg .cmd) (h : l ≠ w.target) :
    (s.store w).elementAt l = s.elementAt l := by
  cases l with
  | reg q =>
    cases w with
    | reg r v =>
      exact congrArg Datum.word
        (s.regValue_store_other v (fun he => hcmd (congrArg Loc.reg he)) fun he => h (congrArg Loc.reg he))
    | _ => cases q <;> rfl
  | blk i =>
    cases w with
    | reg r v => cases r <;> rfl
    | blk j v =>
      have hne : i.val ≠ j.val := fun he => h (congrArg Loc.blk (Fin.ext he))
      simp [State.store, State.elementAt, State.laneAt, cellFind_put_other hne]
    | _ => rfl
  | pkb i =>
    cases w with
    | reg r v => cases r <;> rfl
    | pkb j v =>
      have hne : i.val ≠ j.val := fun he => h (congrArg Loc.pkb (Fin.ext he))
      simp [State.store, State.elementAt, State.byteAt, cellFind_put_other hne]
    | _ => rfl
  | exp i =>
    cases w with
    | reg r v => cases r <;> rfl
    | exp j v =>
      have hne : i.val ≠ j.val := fun he => h (congrArg Loc.exp (Fin.ext he))
      simp [State.store, State.elementAt, State.posAt, cellFind_put_other hne]
    | _ => rfl
  | exv i =>
    cases w with
    | reg r v => cases r <;> rfl
    | exv j v =>
      have hne : i.val ≠ j.val := fun he => h (congrArg Loc.exv (Fin.ext he))
      simp [State.store, State.elementAt, State.valAt, cellFind_put_other hne]
    | _ => rfl

/-- A host write counts its own location as written and changes no other's mark (70_reset_and_hazards.md R285). -/
theorem State.writtenAt_store (s : State) (w : Store) (l : Loc) :
    (s.store w).writtenAt l = (s.writtenAt l || decide (l = w.target)) := by
  cases l with
  | reg q => simp [State.writtenAt, State.store_lost, Lost.has_clear]
  | _ =>
    cases w with
    | reg r v => cases r <;> simp [State.writtenAt, State.store, Store.target, Lost.clear]
    | _ => simp [State.writtenAt, State.store, Store.target, Lost.clear, written_put, Fin.ext_iff]

theorem State.writtenAt_withTurns (s : State) (a : List Turn) (d : List Datum) (l : Loc) :
    (s.withTurns a d).writtenAt l = s.writtenAt l := by
  cases l <;> rfl

/-- A host write other than to CMD keeps what is no location. -/
theorem State.store_keeps (s : State) {w : Store} (hcmd : w.target ≠ .reg .cmd) :
    (s.store w).agenda = s.agenda ∧ (s.store w).phase = s.phase ∧ (s.store w).code = s.code ∧
      (s.store w).answers = s.answers ∧ (s.store w).epoch = s.epoch ∧ (s.store w).draws = s.draws := by
  cases w with
  | reg r v =>
    cases r with
    | cmd => exact absurd rfl hcmd
    | _ => exact ⟨rfl, rfl, rfl, rfl, rfl, rfl⟩
  | _ => exact ⟨rfl, rfl, rfl, rfl, rfl, rfl⟩

theorem State.store_of_target_status {w : Store} (h : w.target = .reg .status) (s : State) : s.store w = s := by
  cases w with
  | reg r v =>
    cases r with
    | status => rfl
    | _ => cases h
  | _ => cases h

/-- Settles O9: the step is the write to the state without that turn. -/
theorem hostWriteReplacesOneElement : Obligations.HostWriteReplacesOneElement := by
  intro s w rest hp ha hcmd
  obtain ⟨hagenda, hphase, hcode, hanswers, hepoch, hdraws⟩ := (s.withTurns rest s.answers).store_keeps hcmd
  refine ⟨_, step_of_write hp ha, hagenda, hphase.trans hp, hcode, hanswers, hepoch, hdraws,
    fun hstatus => State.elementAt_store_target _ hcmd hstatus, fun l hl => ?_, fun l => ?_,
    fun hstatus => State.store_of_target_status hstatus _⟩
  · rw [State.elementAt_store_other _ hcmd hl, State.elementAt_withTurns]
  · rw [State.writtenAt_store, State.writtenAt_withTurns]

/-! ### Completions -/

theorem State.writtenAt_finish (s : State) (c : ResultCode) (l : Loc) : (s.finish c).writtenAt l = s.writtenAt l := by
  cases l <;> rfl

theorem writtenAt_setWidth (s t : State) (w : Nat) (l : Loc) :
    (s.setWidth w).writtenAt l = (s.writtenAt l || writesLoc .selw s t l) := by
  cases l with
  | reg r => cases r <;> simp [State.writtenAt, writesLoc, Lost.has]
  | _ => simp [State.writtenAt, writesLoc]

/-- A length that fits PKB is read back from PLEN. -/
theorem writtenAt_writePacked (s : State) {q : List Byte} (hq : q.length ≤ Config.PKBMAX) (l : Loc) :
    (s.writePacked q).writtenAt l = (s.writtenAt l || writesLoc .pack s (s.writePacked q) l) := by
  have hplen : (s.writePacked q).plen.toNat = q.length := Nat.mod_eq_of_lt (hq.trans_lt (by decide))
  cases l with
  | reg r => cases r <;> simp [State.writtenAt, writesLoc, Lost.has]
  | pkb j => rw [writesLoc, hplen]; exact written_putFront q s.pkb s.lost.bytes j
  | _ => simp [State.writtenAt, writesLoc]

theorem writtenAt_writeBlock {i : Instr} (hi : i = .unpk ∨ i = .pdec) (s t : State) {b : List Word}
    (hb : b.length = s.count.toNat) (l : Loc) :
    (s.writeBlock b).writtenAt l = (s.writtenAt l || writesLoc i s t l) := by
  cases l with
  | reg r => rcases hi with rfl | rfl <;> cases r <;> simp [State.writtenAt, writesLoc, Lost.has]
  | blk k =>
    have hw : writesLoc i s t (.blk k) = decide (k.val < b.length) := by rcases hi with rfl | rfl <;> rw [writesLoc, hb]
    rw [hw]
    exact written_putFront b s.blk s.lost.lanes k
  | _ => rcases hi with rfl | rfl <;> simp [State.writtenAt, writesLoc]

/-- The registers hold what they are given of an encoded block that the core can hold. -/
theorem toNat_registers_writeEncoded (s : State) {e : EncodedBlock} (he : e.Fits) :
    (s.writeEncoded e).width.toNat = e.baseWidth ∧ (s.writeEncoded e).plen.toNat = e.packed.length ∧
      (s.writeEncoded e).excnt.toNat = e.exceptions.length := by
  obtain ⟨hwidth, hbytes, hentries⟩ := he
  exact ⟨Nat.mod_eq_of_lt (hwidth.trans_lt (by decide)), Nat.mod_eq_of_lt (hbytes.trans_lt (by decide)),
    Nat.mod_eq_of_lt (hentries.trans_lt (by decide))⟩

theorem writtenAt_writeEncoded (s : State) {e : EncodedBlock} (he : e.Fits) (l : Loc) :
    (s.writeEncoded e).writtenAt l = (s.writtenAt l || writesLoc .penc s (s.writeEncoded e) l) := by
  obtain ⟨-, hplen, hexcnt⟩ := toNat_registers_writeEncoded s he
  cases l with
  | reg r => cases r <;> simp [State.writtenAt, writesLoc, Lost.has, State.writeEncoded]
  | blk k => exact (Bool.or_false _).symm
  | pkb j => rw [writesLoc, hplen]; exact written_putFront e.packed s.pkb s.lost.bytes j
  | exp k =>
    have hfront := written_putFront (e.exceptions.map Prod.fst) s.exp s.lost.positions k
    rw [List.length_map] at hfront
    rw [writesLoc, hexcnt]
    exact hfront
  | exv k =>
    have hfront := written_putFront (e.exceptions.map Prod.snd) s.exv s.lost.values k
    rw [List.length_map] at hfront
    rw [writesLoc, hexcnt]
    exact hfront

/-- What a command wrote on success counts as written, every other location as before (70_reset_and_hazards.md R285). -/
theorem runOf_writtenAt {i : Instr} {s t : State} (hlegal : operandsLegal i s = true) (hrun : runOf i s = .ok t)
    (l : Loc) : t.writtenAt l = (s.writtenAt l || writesLoc i s t l) := by
  cases i with
  | selw =>
    obtain rfl := runSelw_ok hrun
    exact writtenAt_setWidth s _ _ l
  | pack =>
    obtain ⟨q, hq, rfl⟩ := runPack_ok hrun
    refine writtenAt_writePacked s ?_ l
    rw [pack_length hq, State.block_length]
    exact need_le_of_operandsLegal_pack hlegal
  | unpk =>
    obtain ⟨b, hb, rfl⟩ := runUnpk_ok hrun
    obtain ⟨-, rfl⟩ := unpack_ok_cases hb
    exact writtenAt_writeBlock (.inl rfl) s _ (by simp) l
  | penc =>
    obtain ⟨e, he, rfl⟩ := runPenc_ok hrun
    exact writtenAt_writeEncoded s (encodeBlock_fits (s.block_length.trans_le (count_le_of_operandsLegal hlegal)) he) l
  | pdec =>
    obtain ⟨b, hb, rfl⟩ := runPdec_ok hrun
    exact writtenAt_writeBlock (.inr rfl) s _ (decodeBlock_length hb) l

/-- A failure takes its range from what counts as written, and nothing else (log 21). -/
theorem writtenAt_spoil (i : Instr) (s : State) {l : Loc} (hl : l ≠ .reg .status) :
    (s.spoil (failureRange i s)).writtenAt l = (s.writtenAt l && !spoilsLoc i s l) := by
  cases l with
  | reg r => simp [State.writtenAt, Lost.has_add_failureRange _ _ _ hl]
  | _ => exact written_putFront_markFront _ (by simp) _ _ _

end Sys2Proof.Machine
end

section
/-! What each command writes when it completes with code 0 (41_width_select.md to 44_pfor_codec.md), and what a failed
command leaves alone (60_exceptions.md section 5). -/

namespace Sys2Proof.Machine

/-! ### Completions and the elements they write -/

theorem exec_writtenAt_of_run_ok {i : Instr} {s t : State} (hlegal : operandsLegal i s = true)
    (hrun : runOf i s = .ok t) (l : Loc) :
    (t.finish .ok).writtenAt l = (s.writtenAt l || writesLoc i s (t.finish .ok) l) :=
  (t.writtenAt_finish .ok l).trans (runOf_writtenAt hlegal hrun l)

/-- A bit of an element lies below the end of the stream (20_memory.md R65). -/
theorem streamIndex_lt {i k n w : Nat} (hi : i < n) (hk : k < w) : i * w + k < n * w :=
  calc i * w + k < i * w + w := Nat.add_lt_add_left hk _
    _ = (i + 1) * w := (Nat.succ_mul i w).symm
    _ ≤ n * w := Nat.mul_le_mul_right w hi

/-- The stream bits of the leading bytes of PKB are the block's, when these bytes are its packing. -/
theorem getLsbD_byteAt_of_pack {t : State} {b : List Word} {w p : Nat} {q : List Byte} (hpack : pack b w = .ok q)
    (hbytes : ∀ j (hj : j < q.length), t.byteAt j = q[j]) (hp : p < 8 * q.length) :
    (t.byteAt (p / 8)).getLsbD (p % 8) = blockBit b w p := by
  have hbits := ((pack_eq_ok_iff (pack_ok_cases hpack).1 q).mp hpack).2 p hp
  have hj : p / 8 < q.length := by omega
  rw [← hbits, hbytes _ hj, byteBit, List.getD_eq_getElem _ _ hj]

/-- The bits of a field of the packed operand, where PLEN covers the need (43_bitunpack.md R181). -/
theorem getLsbD_fieldAt_packed {s : State} {i k : Nat} (hneed : s.need ≤ s.plen.toNat) (hi : i < s.count.toNat)
    (hk : k < 32) :
    (fieldAt s.packed s.bitWidth i).getLsbD k =
      (decide (k < s.width.toNat) &&
        (s.byteAt ((i * s.width.toNat + k) / 8)).getLsbD ((i * s.width.toNat + k) % 8)) := by
  rw [getLsbD_fieldAt _ _ _ _ hk]
  by_cases hkw : k < s.bitWidth
  · have hin := streamIndex_lt hi hkw
    have hbits := (packedLength_bounds s.count.toNat s.bitWidth).1
    rw [byteBit_packedOperand (lt_of_lt_of_le hin (hbits.trans (Nat.mul_le_mul_left 8 hneed)))]
    rfl
  · rw [decide_eq_false hkw, decide_eq_false (show ¬ k < s.width.toNat from hkw), Bool.false_and, Bool.false_and]

/-! ### SELW -/

/-- Settles O30: `selectWidth` is at most `w` exactly when every lane fits `w` bits. -/
theorem selwWritesLeastFittingWidth : Obligations.SelwWritesLeastFittingWidth := by
  intro s hcount
  have hlegal : operandsLegal .selw s = true := decide_eq_true hcount
  have hrun : runOf .selw s = .ok (s.setWidth (selectWidth s.block)) := rfl
  have hwidth : ((s.setWidth (selectWidth s.block)).finish .ok).width.toNat = selectWidth s.block :=
    Nat.mod_eq_of_lt ((selectWidth_le_32 s.block).trans_lt (by decide))
  refine ⟨_, exec_of_run_ok hlegal hrun, rfl, ?_, ?_, ?_, exec_writtenAt_of_run_ok hlegal hrun⟩
  · exact hwidth.trans_le (selectWidth_le_32 s.block)
  · rw [hwidth]
    exact fun i hi => (selectWidth_le_iff s.block _).mp le_rfl _ ((mem_block_iff s _).mpr ⟨i, hi, rfl⟩)
  · rw [hwidth]
    intro w hw
    obtain ⟨v, hv, hle⟩ := (lt_selectWidth_iff s.block w).mp hw
    obtain ⟨i, hi, rfl⟩ := (mem_block_iff s v).mp hv
    exact ⟨i, hi, hle⟩

/-! ### PACK -/

theorem block_fits_iff (s : State) (w : Nat) :
    (∀ v ∈ s.block, v.toNat < 2 ^ w) ↔ ∀ i < s.count.toNat, (s.laneAt i).toNat < 2 ^ w := by
  simp [mem_block_iff]

/-- Settles O31: PKB and PLEN take the packing of the block, whose bits are the block's stream bits. -/
theorem packWritesTheBitStream : Obligations.PackWritesTheBitStream := by
  intro s hcount hwidth hfits
  have hlegal : operandsLegal .pack s = true := by simp [operandsLegal, hcount, hwidth, Config.NMAX, Config.WMAX]
  obtain ⟨q, hpack⟩ : ∃ q, pack s.block s.bitWidth = .ok q := ⟨_, pack_of_fits ((block_fits_iff s _).mpr hfits)⟩
  have hrun : runOf .pack s = .ok (s.writePacked q) := by rw [runOf, runPack, hpack]; rfl
  have hlen : q.length = s.need := by rw [pack_length hpack, State.block_length, State.need]
  have hplen : ((s.writePacked q).finish .ok).plen.toNat = q.length :=
    Nat.mod_eq_of_lt (by rw [hlen]; exact (need_le_of_operandsLegal_pack hlegal).trans_lt (by decide))
  have hbit : ∀ p < 8 * q.length, (((s.writePacked q).finish .ok).byteAt (p / 8)).getLsbD (p % 8) =
      blockBit s.block s.width.toNat p := fun p hp =>
    getLsbD_byteAt_of_pack hpack (fun j hj => (s.byteAt_writePacked q j).trans (dif_pos hj)) hp
  have hend : s.count.toNat * s.width.toNat ≤ 8 * q.length := hlen ▸ (packedLength_bounds s.count.toNat s.bitWidth).1
  refine ⟨_, exec_of_run_ok hlegal hrun, rfl, hplen.trans hlen, fun i hi k hk => ?_, fun p hp hlt => ?_, fun j hj => ?_,
    exec_writtenAt_of_run_ok hlegal hrun⟩
  · rw [hbit _ ((streamIndex_lt hi hk).trans_le hend), blockBit_element _ _ _ _ (s.block_length.symm ▸ hi) hk,
      block_getD hi]
  · rw [hbit p (hplen ▸ hlt), blockBit_padding _ _ _ (s.block_length.symm ▸ hp)]
  · rw [hplen] at hj
    exact (s.byteAt_writePacked q j).trans (dif_neg (Nat.not_lt.mpr hj))

/-! ### UNPK -/

theorem operandsLegal_unpk_iff (s : State) :
    operandsLegal .unpk s = true ↔ s.count.toNat ≤ 256 ∧ s.width.toNat ≤ 32 ∧ s.plen.toNat ≤ 1024 := by
  simp [operandsLegal, and_assoc, Config.NMAX, Config.WMAX, Config.PKBMAX]

/-- Settles O32: the lanes below COUNT take the fields of the packed operand. -/
theorem unpkWritesTheFields : Obligations.UnpkWritesTheFields := by
  intro s hcount hwidth hplen hneed
  have hlegal : operandsLegal .unpk s = true := (operandsLegal_unpk_iff s).mpr ⟨hcount, hwidth, hplen⟩
  have hunpack := unpack_of_le (p := s.packed) (w := s.bitWidth) (c := s.count.toNat) (s.packed_length.symm ▸ hneed)
  have hrun : runOf .unpk s = .ok (s.writeBlock ((List.range s.count.toNat).map (fieldAt s.packed s.bitWidth))) := by
    rw [runOf, runUnpk, hunpack]; rfl
  refine ⟨_, exec_of_run_ok hlegal hrun, rfl, fun i hi k hk => ?_, fun i hi => ?_, exec_writtenAt_of_run_ok hlegal hrun⟩
  · rw [State.laneAt_finish, State.laneAt_writeBlock, dif_pos (by simpa using hi), List.getElem_map, List.getElem_range]
    exact getLsbD_fieldAt_packed hneed hi hk
  · rw [State.laneAt_finish, State.laneAt_writeBlock, dif_neg (by simpa using hi)]

/-! ### PENC -/

/-- The lanes below COUNT that exceed `w` bits, in ascending order (44_pfor_codec.md R205). -/
def State.outlierLanes (s : State) (w : Nat) : List Nat :=
  (List.range s.count.toNat).filter (fun i => exceeds w (s.laneAt i))

theorem mem_outlierLanes {s : State} {w i : Nat} :
    i ∈ s.outlierLanes w ↔ i < s.count.toNat ∧ 2 ^ w ≤ (s.laneAt i).toNat := by
  simp [State.outlierLanes, exceeds]

theorem length_outlierLanes (s : State) (w : Nat) :
    (s.outlierLanes w).length = (List.range s.count.toNat).countP (fun i => decide (2 ^ w ≤ (s.laneAt i).toNat)) :=
  List.countP_eq_length_filter.symm

theorem excess_block (s : State) (w : Nat) :
    excess s.block w = (List.range s.count.toNat).countP (fun i => decide (2 ^ w ≤ (s.laneAt i).toNat)) :=
  List.countP_map

/-- The entries of consecutive elements are their indices and values, where they exceed the width. -/
theorem outliersFrom_map_range' (f : Nat → Word) (w n c : Nat) :
    outliersFrom w n ((List.range' n c).map f) =
      ((List.range' n c).filter (fun i => exceeds w (f i))).map (fun i => (BitVec.ofNat 32 i, f i)) := by
  induction c generalizing n with
  | zero => rfl
  | succ c ih =>
    rw [List.range'_succ, List.map_cons, outliersFrom, ih, List.filter_cons]
    split <;> rfl

theorem outliersFrom_block (s : State) (w : Nat) :
    outliersFrom w 0 s.block = (s.outlierLanes w).map (fun i => (BitVec.ofNat 32 i, s.laneAt i)) := by
  rw [State.block, State.outlierLanes, List.range_eq_range', outliersFrom_map_range']

/-- The base holds a lane that fits, and the sentinel for an outlier (44_pfor_codec.md R204). -/
theorem getLsbD_baseBlock {s : State} {i : Nat} (hi : i < s.count.toNat) (w k : Nat) :
    ((baseBlock s.block w).getD i 0).getLsbD k =
      (decide ((s.laneAt i).toNat < 2 ^ w) && (s.laneAt i).getLsbD k) := by
  have helement : (baseBlock s.block w).getD i 0 = if exceeds w (s.laneAt i) then 0 else s.laneAt i := by
    simp [baseBlock, State.block, hi]
  rw [helement, exceeds]
  by_cases h : 2 ^ w ≤ (s.laneAt i).toNat
  · simp [h, h.not_gt]
  · simp [h, Nat.lt_of_not_le h]

section
variable {s : State} {e : EncodedBlock}

theorem exceptions_of_encode (h : encodeBlock s.block s.exceptionBudget = .ok e) :
    e.exceptions = (s.outlierLanes e.baseWidth).map (fun i => (BitVec.ofNat 32 i, s.laneAt i)) :=
  (encodeBlock_ok_cases h).2.2.trans (outliersFrom_block s e.baseWidth)

/-- The chosen width is at most 32, meets the budget, and no smaller one does (44_pfor_codec.md R203). -/
theorem baseWidth_of_encode (h : encodeBlock s.block s.exceptionBudget = .ok e) :
    e.baseWidth ≤ 32 ∧
      (((List.range s.count.toNat).countP (fun i => decide (2 ^ e.baseWidth ≤ (s.laneAt i).toNat)) : Nat) : Int)
        ≤ s.budget.toInt ∧
      ∀ w < e.baseWidth, s.budget.toInt <
        (((List.range s.count.toNat).countP (fun i => decide (2 ^ w ≤ (s.laneAt i).toNat)) : Nat) : Int) := by
  obtain ⟨hw32, hmeets, hleast⟩ := (chooseWidth_eq_some_iff _ _ _).mp (encodeBlock_ok_cases h).1
  exact ⟨hw32, excess_block s _ ▸ hmeets, fun w hw => excess_block s w ▸ hleast w hw⟩

/-- Entry `k` that PENC writes names outlier lane `k` and holds its full value (44_pfor_codec.md R205). -/
theorem entry_writeEncoded (h : encodeBlock s.block s.exceptionBudget = .ok e) (hcount : s.count.toNat ≤ 256) {k : Nat}
    (hk : k < e.exceptions.length) :
    ∃ hk' : k < (s.outlierLanes e.baseWidth).length,
      ((s.writeEncoded e).posAt k).toNat = (s.outlierLanes e.baseWidth)[k] ∧
      (s.writeEncoded e).valAt k = s.laneAt (s.outlierLanes e.baseWidth)[k] := by
  have hexc := exceptions_of_encode h
  have hk' : k < (s.outlierLanes e.baseWidth).length := by rwa [hexc, List.length_map] at hk
  have hentry := (List.getElem_of_eq hexc hk).trans (List.getElem_map _)
  have hlane := (mem_outlierLanes.mp (List.getElem_mem hk')).1
  rw [State.posAt_writeEncoded, State.valAt_writeEncoded, dif_pos hk, dif_pos hk, hentry]
  exact ⟨hk', Nat.mod_eq_of_lt (hlane.trans_le (hcount.trans (by decide))), rfl⟩

/-- Each entry names an outlier below COUNT. -/
theorem entry_writeEncoded_outlier (h : encodeBlock s.block s.exceptionBudget = .ok e) (hcount : s.count.toNat ≤ 256)
    {k : Nat} (hk : k < e.exceptions.length) :
    ((s.writeEncoded e).posAt k).toNat < s.count.toNat ∧
      (s.writeEncoded e).valAt k = s.laneAt ((s.writeEncoded e).posAt k).toNat ∧
      2 ^ e.baseWidth ≤ ((s.writeEncoded e).valAt k).toNat := by
  obtain ⟨hk', hpos, hval⟩ := entry_writeEncoded h hcount hk
  obtain ⟨hlane, hexceeds⟩ := mem_outlierLanes.mp (List.getElem_mem hk')
  rw [hpos, hval]
  exact ⟨hlane, rfl, hexceeds⟩

/-- The entries stand in ascending order of position. -/
theorem posAt_writeEncoded_lt (h : encodeBlock s.block s.exceptionBudget = .ok e) (hcount : s.count.toNat ≤ 256)
    {k l : Nat} (hkl : k < l) (hl : l < e.exceptions.length) :
    ((s.writeEncoded e).posAt k).toNat < ((s.writeEncoded e).posAt l).toNat := by
  obtain ⟨hk', hposk, -⟩ := entry_writeEncoded h hcount (hkl.trans hl)
  obtain ⟨hl', hposl, -⟩ := entry_writeEncoded h hcount hl
  have hsorted : (s.outlierLanes e.baseWidth).Pairwise (· < ·) := List.pairwise_lt_range.filter _
  rw [hposk, hposl]
  exact List.pairwise_iff_getElem.mp hsorted k l hk' hl' hkl

/-- The bytes PENC writes are the packing of the base block (44_pfor_codec.md R206). -/
theorem getLsbD_byteAt_writeEncoded (h : encodeBlock s.block s.exceptionBudget = .ok e) {p : Nat}
    (hp : p < 8 * e.packed.length) :
    ((s.writeEncoded e).byteAt (p / 8)).getLsbD (p % 8) = blockBit (baseBlock s.block e.baseWidth) e.baseWidth p :=
  getLsbD_byteAt_of_pack (encodeBlock_ok_cases h).2.1 (fun j hj => (s.byteAt_writeEncoded e j).trans (dif_pos hj)) hp

theorem length_packed_of_encode (h : encodeBlock s.block s.exceptionBudget = .ok e) :
    e.packed.length = packedLength s.count.toNat e.baseWidth := by
  rw [pack_length (encodeBlock_ok_cases h).2.1, baseBlock_length, State.block_length]

end

/-- Settles O33: the width is the chosen one, the entries are the outlier lanes, and the bytes are the packing of the
base. -/
theorem pencWritesTheEncodedBlock : Obligations.PencWritesTheEncodedBlock := by
  intro s hcount hbudget
  have hlegal : operandsLegal .penc s = true := decide_eq_true hcount
  obtain ⟨e, hencode⟩ := exists_encodeBlock_ok (b := s.block) (budget := s.exceptionBudget) hbudget
  have hrun : runOf .penc s = .ok (s.writeEncoded e) := by rw [runOf, runPenc, hencode]; rfl
  obtain ⟨hwidth, hplen, hexcnt⟩ :=
    toNat_registers_writeEncoded s (encodeBlock_fits (s.block_length.trans_le hcount) hencode)
  obtain ⟨hw32, hmeets, hleast⟩ := baseWidth_of_encode hencode
  have hlen := length_packed_of_encode hencode
  have hend : s.count.toNat * e.baseWidth ≤ 8 * e.packed.length := hlen ▸ (packedLength_bounds _ _).1
  have hbase : (baseBlock s.block e.baseWidth).length = s.count.toNat := (baseBlock_length _ _).trans s.block_length
  refine ⟨_, exec_of_run_ok hlegal hrun, rfl, ?_⟩
  simp only [State.finish_width, State.finish_plen, State.finish_excnt, State.byteAt_finish, State.posAt_finish,
    State.valAt_finish, hwidth, hplen, hexcnt]
  refine ⟨hw32, hmeets, hleast, ?_, fun k hk => entry_writeEncoded_outlier hencode hcount hk,
    fun k l hkl hl => posAt_writeEncoded_lt hencode hcount hkl hl, hlen, fun i hi k hk => ?_, fun p hp hlt => ?_,
    fun j hj => ?_, fun k hk => ⟨?_, ?_⟩, exec_writtenAt_of_run_ok hlegal hrun⟩
  · rw [exceptions_of_encode hencode, List.length_map, length_outlierLanes]
  · rw [getLsbD_byteAt_writeEncoded hencode ((streamIndex_lt hi hk).trans_le hend),
      blockBit_element _ _ _ _ (hbase.symm ▸ hi) hk, getLsbD_baseBlock hi]
  · rw [getLsbD_byteAt_writeEncoded hencode hlt, blockBit_padding _ _ _ (hbase.symm ▸ hp)]
  · exact (s.byteAt_writeEncoded e j).trans (dif_neg (Nat.not_lt.mpr hj))
  · exact (s.posAt_writeEncoded e k).trans (dif_neg (Nat.not_lt.mpr hk))
  · exact (s.valAt_writeEncoded e k).trans (dif_neg (Nat.not_lt.mpr hk))

/-! ### PDEC -/

theorem lastHit_eq_none {x : List (Word × Word)} {i : Nat} (h : ∀ e ∈ x, e.1.toNat ≠ i) : lastHit x i = none := by
  rw [lastHit, List.filter_eq_nil_iff.mpr fun e he => by simpa using h e he]
  rfl

/-- The last entry that names a lane is the hit. -/
theorem lastHit_of_last {x : List (Word × Word)} {i k : Nat} (hk : k < x.length) (hpos : x[k].1.toNat = i)
    (hlast : ∀ l (hl : l < x.length), k < l → x[l].1.toNat ≠ i) : lastHit x i = some x[k].2 := by
  induction x generalizing k with
  | nil => cases hk
  | cons e x ih =>
    rw [lastHit_cons]
    cases k with
    | zero =>
      have hrest : ∀ e' ∈ x, e'.1.toNat ≠ i := by
        intro e' he'
        obtain ⟨l, hl, rfl⟩ := List.getElem_of_mem he'
        exact hlast (l + 1) (Nat.succ_lt_succ hl) (Nat.succ_pos l)
      rw [lastHit_eq_none hrest, Option.none_or]
      exact if_pos hpos
    | succ k =>
      have hsome := ih (Nat.lt_of_succ_lt_succ hk) hpos fun l hl hkl =>
        hlast (l + 1) (Nat.succ_lt_succ hl) (Nat.succ_lt_succ hkl)
      rw [hsome, Option.some_or, List.getElem_cons_succ]

theorem getElem_exceptions {s : State} {k : Nat} (hk : k < s.exceptions.length) :
    s.exceptions[k] = (s.posAt k, s.valAt k) := by
  simp [State.exceptions]

/-- The block PDEC writes: in each lane the last exception that names it, else the field (44_pfor_codec.md R225). -/
def State.overlaid (s : State) : List Word :=
  overlayMux ((List.range s.count.toNat).map (fieldAt s.packed s.bitWidth)) s.exceptions

theorem laneAt_overlaid {s : State} {i : Nat} (hi : i < s.count.toNat) :
    (s.writeBlock s.overlaid).laneAt i = (lastHit s.exceptions i).getD (fieldAt s.packed s.bitWidth i) := by
  rw [State.laneAt_writeBlock, dif_pos (by simpa [State.overlaid, overlayMux] using hi)]
  simp [State.overlaid, overlayMux]

theorem decodeBlock_encoded {s : State} (hneed : s.need ≤ s.plen.toNat)
    (hpos : ∀ k < s.excnt.toNat, (s.posAt k).toNat < s.count.toNat) :
    decodeBlock s.encoded s.count.toNat = .ok s.overlaid := by
  have hunpack : unpack s.encoded.packed s.encoded.baseWidth s.count.toNat = .ok _ :=
    unpack_of_le (s.packed_length.symm ▸ hneed)
  have hcheck : s.exceptions.any (fun e => decide (s.count.toNat ≤ e.1.toNat)) = false := by
    simpa [State.exceptions] using hpos
  rw [decodeBlock_of_unpack hunpack, overlay_eq_datapathOverlay, datapathOverlay]
  exact if_neg (Bool.eq_false_iff.mp hcheck)

/-- Settles O34: the lanes below COUNT take the fields overlaid with the last entries that name them. -/
theorem pdecWritesTheOverlaidBlock : Obligations.PdecWritesTheOverlaidBlock := by
  intro s hcount hwidth hplen hexcnt hneed hpos
  have hlegal : operandsLegal .pdec s = true := by
    simp [operandsLegal, hcount, hwidth, hplen, hexcnt, Config.NMAX, Config.WMAX, Config.PKBMAX, Config.EXMAX]
  have hrun : runOf .pdec s = .ok (s.writeBlock s.overlaid) := by
    rw [runOf, runPdec, decodeBlock_encoded hneed hpos]; rfl
  refine ⟨_, exec_of_run_ok hlegal hrun, rfl, fun k hk hlast => ?_, fun i hi hnone k hk => ?_, fun i hi => ?_,
    exec_writtenAt_of_run_ok hlegal hrun⟩
  · have hk' : k < s.exceptions.length := s.exceptions_length.symm ▸ hk
    have hhit : lastHit s.exceptions (s.posAt k).toNat = some s.exceptions[k].2 := by
      refine lastHit_of_last hk' (by rw [getElem_exceptions]) fun l hl hkl => ?_
      rw [getElem_exceptions]
      exact fun he => hlast l hkl (s.exceptions_length ▸ hl) (BitVec.eq_of_toNat_eq he)
    rw [State.laneAt_finish, laneAt_overlaid (hpos k hk), hhit, getElem_exceptions]
    rfl
  · have hmiss : lastHit s.exceptions i = none := by
      refine lastHit_eq_none fun e he => ?_
      obtain ⟨k, hk, rfl⟩ := (mem_exceptions_iff s e).mp he
      exact hnone k hk
    rw [State.laneAt_finish, laneAt_overlaid hi, hmiss, Option.getD_none]
    exact getLsbD_fieldAt_packed hneed hi hk
  · rw [State.laneAt_finish, State.laneAt_writeBlock, dif_neg (by simpa [State.overlaid, overlayMux] using hi)]

/-! ### Failures -/

theorem cellPutFront_nil {α : Type} (m : Cells α) : cellPutFront [] m = m := by
  simp [cellPutFront, cellNumber]

/-- Settles O35: a failure is `spoil` with the command's failure range, which leaves alone what the range leaves out. -/
theorem failureStaysInsideItsRange : Obligations.FailureStaysInsideItsRange := by
  intro i s
  rcases exec_cases i s with ⟨-, he⟩ | ⟨-, u, -, he⟩ | ⟨-, k, -, he⟩
  · exact ⟨_, he, fun _ hcode => absurd rfl hcode⟩
  · exact ⟨_, he, fun hcode => absurd rfl hcode⟩
  · refine ⟨_, he, fun _ _ => ⟨rfl, fun l hl => ?_, ?_, ?_, ?_⟩⟩
    · rw [State.writtenAt_finish, writtenAt_spoil i s hl]
    · rintro rfl
      exact ⟨rfl, rfl, cellPutFront_nil s.blk, fun j hj => s.byteAt_spoil _ hj,
        fun k => ⟨s.posAt_spoil _ (Nat.zero_le k), s.valAt_spoil _ (Nat.zero_le k)⟩⟩
    · rintro (rfl | rfl) <;>
        exact ⟨rfl, rfl, rfl, fun j hj => s.laneAt_spoil _ hj, fun j => s.byteAt_spoil _ (Nat.zero_le j),
          fun k => ⟨s.posAt_spoil _ (Nat.zero_le k), s.valAt_spoil _ (Nat.zero_le k)⟩⟩
    · rintro rfl
      exact ⟨fun j => s.laneAt_spoil _ (Nat.zero_le j), fun j hj => s.byteAt_spoil _ hj,
        fun k hk => ⟨s.posAt_spoil _ hk, s.valAt_spoil _ hk⟩⟩

end Sys2Proof.Machine
end

section
/-! A command whose operands have been initialised does not depend on what the reset left in the buffers, nor on any
location that nobody has written (70_reset_and_hazards.md section 2). -/

namespace Sys2Proof.Machine

/-! ### What is initialised is what is read -/

/-- What R285 asks a host to initialise for a command is what the command reads; CMD, STATUS, COUNT and BUDGET are never
marked. -/
theorem writtenAt_of_readsLoc {i : Instr} {s : State} {l : Loc} (h : operandsWritten i s = true)
    (hread : readsLoc i s l = true) : s.writtenAt l = true := by
  cases l with
  | reg r =>
    cases r with
    | width =>
      have hmark : s.lost.width = false := by cases i <;> simp_all [operandsWritten, readsLoc]
      exact congrArg Bool.not hmark
    | plen =>
      have hmark : s.lost.plen = false := by cases i <;> simp_all [operandsWritten, readsLoc]
      exact congrArg Bool.not hmark
    | excnt =>
      have hmark : s.lost.excnt = false := by cases i <;> simp_all [operandsWritten, readsLoc]
      exact congrArg Bool.not hmark
    | _ => rfl
  | blk k =>
    have hblock : s.blockWritten = true ∧ k.val < s.count.toNat := by cases i <;> simp_all [operandsWritten, readsLoc]
    exact List.all_eq_true.mp hblock.1 k (List.mem_range.mpr hblock.2)
  | pkb j =>
    have hbytes : s.neededBytesWritten = true ∧ j.val < s.need := by cases i <;> simp_all [operandsWritten, readsLoc]
    exact List.all_eq_true.mp hbytes.1 j (List.mem_range.mpr hbytes.2)
  | exp k =>
    have hentries : s.entriesWritten = true ∧ k.val < s.excnt.toNat := by
      cases i <;> simp_all [operandsWritten, readsLoc]
    exact (Bool.and_eq_true_iff.mp (List.all_eq_true.mp hentries.1 k (List.mem_range.mpr hentries.2))).1
  | exv k =>
    have hentries : s.entriesWritten = true ∧ k.val < s.excnt.toNat := by
      cases i <;> simp_all [operandsWritten, readsLoc]
    exact (Bool.and_eq_true_iff.mp (List.all_eq_true.mp hentries.1 k (List.mem_range.mpr hentries.2))).2

theorem ne_status_of_readsLoc {i : Instr} {s : State} {l : Loc} (h : readsLoc i s l = true) : l ≠ .reg .status := by
  rintro rfl
  cases i <;> cases h

theorem agreeOnInputs_of_written {i : Instr} {s r : State} (h : operandsWritten i s = true)
    (hagree : ∀ l, l ≠ .reg .status → s.writtenAt l = true → r.elementAt l = s.elementAt l) : AgreeOnInputs i s r :=
  fun l hl => (hagree l (ne_status_of_readsLoc hl) (writtenAt_of_readsLoc h hl)).symm

/-! ### Another draw of the reset content -/

/-- The state with the unspecified content of another draw (log 4). -/
def State.redrawn (s : State) (e : Nat) : State := { s with epoch := e }

theorem getD_cellFind_of_written {α : Type} {m : Cells α} {marks : List Nat} {k : Nat} (h : written m marks k = true)
    (u v : α) : (cellFind k m).getD u = (cellFind k m).getD v := by
  obtain ⟨a, ha⟩ := Option.isSome_iff_exists.mp (Bool.and_eq_true_iff.mp h).1
  rw [ha, Option.getD_some, Option.getD_some]

/-- A written element is no free value. -/
theorem State.elementAt_redrawn {s : State} {l : Loc} (h : s.writtenAt l = true) (e : Nat) :
    (s.redrawn e).elementAt l = s.elementAt l := by
  cases l with
  | reg r => cases r <;> rfl
  | blk i => exact congrArg Datum.word (getD_cellFind_of_written h _ _)
  | pkb j => exact congrArg Datum.byte (getD_cellFind_of_written h _ _)
  | exp k => exact congrArg Datum.word (getD_cellFind_of_written h _ _)
  | exv k => exact congrArg Datum.word (getD_cellFind_of_written h _ _)

theorem agreeOnInputs_redrawn {i : Instr} {s : State} (h : operandsWritten i s = true) (e : Nat) :
    AgreeOnInputs i s (s.redrawn e) :=
  agreeOnInputs_of_written h fun _ _ hw => State.elementAt_redrawn hw e

/-- `run` gets the same operands and writes its answer beside the unspecified content. -/
theorem runOf_redrawn {i : Instr} {s : State} {e : Nat} (h : AgreeOnInputs i s (s.redrawn e))
    (hlegal : operandsLegal i s = true) : runOf i (s.redrawn e) = (runOf i s).map (State.redrawn · e) := by
  have hcount := count_le_of_operandsLegal hlegal
  cases i with
  | selw =>
    rw [runOf, runSelw, h.block_eq hcount fun _ => rfl]
    rfl
  | pack =>
    rw [runOf, runPack, h.block_eq hcount fun _ => rfl]
    exact comp_map s.writePacked (State.redrawn · e) (pack s.block s.bitWidth)
  | unpk =>
    rw [runOf, runUnpk, h.unpack_eq ((operandsLegal_unpk_iff s).mp hlegal).2.2]
    exact comp_map s.writeBlock (State.redrawn · e) (unpack s.packed s.bitWidth s.count.toNat)
  | penc =>
    rw [runOf, runPenc, h.block_eq hcount fun _ => rfl]
    exact comp_map s.writeEncoded (State.redrawn · e) (encodeBlock s.block s.exceptionBudget)
  | pdec =>
    obtain ⟨-, -, hbytes, hentries⟩ := (operandsLegal_pdec_iff s).mp hlegal
    rw [runOf, runPdec, h.decodeBlock_eq (s.packed_length ▸ hbytes) (s.exceptions_length ▸ hentries)]
    exact comp_map s.writeBlock (State.redrawn · e) (decodeBlock s.encoded s.count.toNat)

theorem failureRange_redrawn (i : Instr) (s : State) (e : Nat) : failureRange i (s.redrawn e) = failureRange i s := by
  cases i <;> rfl

/-- The completion with another draw is the completion, but for that draw. -/
theorem exec_redrawn {i : Instr} {s t : State} (hw : operandsWritten i s = true) (h : exec i s = .next t) (e : Nat) :
    exec i (s.redrawn e) = .next (t.redrawn e) := by
  have hagree := agreeOnInputs_redrawn hw e
  have hlegal' := hagree.operandsLegal_eq
  rcases exec_cases i s with ⟨hlegal, he⟩ | ⟨hlegal, u, hrun, he⟩ | ⟨hlegal, k, hrun, he⟩
  · obtain rfl := Host.Outcome.next.inj (he.symm.trans h)
    exact exec_of_illegalOperands (hlegal'.trans hlegal)
  · obtain rfl := Host.Outcome.next.inj (he.symm.trans h)
    have hrun' := runOf_redrawn hagree hlegal
    rw [hrun] at hrun'
    exact exec_of_run_ok (hlegal'.trans hlegal) hrun'
  · obtain rfl := Host.Outcome.next.inj (he.symm.trans h)
    have hrun' := runOf_redrawn hagree hlegal
    rw [hrun] at hrun'
    rw [exec_of_run_error (hlegal'.trans hlegal) hrun', failureRange_redrawn]
    rfl

theorem spoilsLoc_redrawn (i : Instr) (s : State) (e : Nat) (l : Loc) :
    spoilsLoc i (s.redrawn e) l = spoilsLoc i s l := by
  unfold spoilsLoc
  rw [failureRange_redrawn]

/-- Settles O22: the command reads written locations only, on which the other state agrees; with another draw the rest
of the completion is the same too. -/
theorem initialisedCommandIgnoresResetContent : Obligations.InitialisedCommandIgnoresResetContent := by
  intro i s hw
  refine ⟨fun e => ?_, fun r hagree => ?_⟩
  · obtain ⟨t, ht⟩ := exec_next i s
    have hu := exec_redrawn hw ht e
    refine ⟨t, t.redrawn e, ht, hu, rfl, fun _ => rfl, fun hok _ l hspoil hl => ?_⟩
    calc (t.redrawn e).elementAt l = (s.redrawn e).elementAt l :=
          exec_elementAt_of_ne_ok hu hok ((spoilsLoc_redrawn i s e l).trans hspoil)
      _ = s.elementAt l := State.elementAt_redrawn hl e
      _ = t.elementAt l := (exec_elementAt_of_ne_ok ht hok hspoil).symm
  · exact exec_of_agreeOnInputs (agreeOnInputs_of_written hw hagree)

end Sys2Proof.Machine
end
